-- ==== Sys2Proof/Word.lean ====
section
/-! DEFINITION. The value types that travel through the block (spec/10_state.md, rules R10 to R15). -/

namespace Sys2Proof

/-- A 32-bit limb (10_state.md rule R10). -/
abbrev Limb := BitVec 32

/-- A 16-bit limb; the spec says digit (10_state.md rule R11). -/
abbrev Digit := BitVec 16

/-- Four limbs, limb `i` at bits `[32i+31:32i]`; every pattern is valid (rules R10, R49). -/
abbrev Limb128 := BitVec 128

/-- Eight digits, digit `k` at bits `[16k+15:16k]` (rules R11, R49). -/
abbrev Limb128x16 := BitVec 128

/-- The 32-bit flags word and the 32-bit count and scalar fields (rules R6, R15, R20, R21). -/
abbrev Word32 := BitVec 32

/-- A 192-bit field `A`, `B`, `X` or `Y` (rules R20, R21). -/
abbrev Bus := BitVec 192

/-- An operation code (rule R20). -/
abbrev OpCode := BitVec 8

/-- One byte of an interchange image (20_memory.md rule R31). -/
abbrev Byte := BitVec 8

/-- An ExtFloat: mantissa, flags word, biased exponent; all three plain bit patterns (rule R13).
The constructor is the spec's `ext(m, f, e)`. -/
structure ExtFloat where
  /-- `mant(v)` -/
  mant : Limb128
  /-- `flags(v)` -/
  flags : Word32
  /-- `exp(v)`, biased by 0x8000_0000 -/
  exp : Word32
  deriving DecidableEq, Repr, Inhabited

end Sys2Proof
end

