-- ==== Sys2Proof/Config.lean ====
section
/-! DEFINITION. The fixed parameters (spec/00_scope.md rule R6), the open parameters (rule R7, spec/92_eei_decisions.md
section 5) and the values the spec leaves without a statement (opaque constants: nothing can be proved of them). -/

namespace Sys2Proof
namespace Config

/-! The fixed parameters of rule R6. -/

def limbBits : Nat := 32
def limbs : Nat := 4
def wideBits : Nat := 128
def digitBits : Nat := 16
def digits : Nat := 8
def expBits : Nat := 32
def flagBits : Nat := 32
def extBits : Nat := 192
def opBits : Nat := 8
def nBits : Nat := 32
/-- `ADDHI_SHIFT`: bits dropped by `add_hi` on carry. -/
def addhiShift : Nat := 32
/-- `BIAS`. -/
def bias : Word32 := 0x80000000#32
/-- `ZERO_EXP`: the exponent EQEXP gives two zeros. -/
def zeroExp : Word32 := 0x80000000#32

/-- The open parameters of rule R7, in one place (92_eei_decisions.md section 5). Only `eqexpFar` touches a
block operation. -/
structure Params where
  /-- `EQEXP_FAR`: the shifted mantissa when the exponent distance exceeds 128 (D10). -/
  eqexpFar : Limb128 → Nat → Limb128
  /-- `ADD_EQUAL_SIGN`: the sign of an exact cancellation (D22), true for negative. -/
  addEqualSign : ExtFloat → ExtFloat → Bool
  /-- `MUL_EXP_ADJ`: the constant added in the product's exponent (D23), as a 32-bit word. -/
  mulExpAdj : Word32
  /-- `DIV_SEED_CANON`: the reciprocal seed when the approximation of the divisor is zero (D24). -/
  divSeedCanon : ExtFloat
  /-- `F32`: the native `1.0 / g` on binary32 patterns (D25). -/
  f32Recip : Word32 → Word32
  /-- `F32`: every value of a magnitude below 2 to this power is too small for the native format, so that `ext_to_f32`
  gives exactly 0.0; how small is part of `F32` (93 U12). -/
  f32ZeroBelow : Int
  /-- `F32`: `ext_to_f32` where the spec states no value (D25; 93 U12). -/
  extToF32Open : ExtFloat → Word32
  /-- `F32`: `f32_to_ext` where the spec states no value (D25; 93 U12). -/
  f32ToExtOpen : Word32 → ExtFloat

/-! Free values: the spec states none, so none is written here (log entries 10 to 14). -/

/-- 47_extfloat_client_ops.md rule R194, 93 U7: "a canonical value", not given. -/
opaque divSeedCanon : ExtFloat
/-- 93 U8: the native reciprocal where the operand or the result is not a normal binary32 number. -/
opaque f32RecipOpen : Word32 → Word32
/-- 93 U12: `ext_to_f32` of a zero, of an unnormalised value, of an exponent outside 1..254, unless the value is too small
for the format. -/
opaque extToF32Open : ExtFloat → Word32
/-- 93 U12: `f32_to_ext` of a zero, subnormal, infinite or NaN pattern. -/
opaque f32ToExtOpen : Word32 → ExtFloat
/-- Rule R201: `i32_to_ext` is named only. -/
opaque i32ToExt : Word32 → ExtFloat
/-- Rule R202: whether the quantisation of `num/den` rounds its magnitude up. -/
opaque decimalRoundsUp : Nat → Nat → Bool
/-- Rule R202: `decimal_string_to_ext` of zero. -/
opaque decimalZero : Bool → ExtFloat
/-- Rule R202: `decimal_string_to_ext` of characters that are no decimal as Decimal.lean reads one (the syntax is not
given). -/
opaque decimalOther : List Char → ExtFloat
/-- 93 U10: the value under a newly set IMPOSSIBLE flag (no operands reach it, rule R186). -/
opaque impossibleValue : ExtFloat → ExtFloat → ExtFloat

end Config
end Sys2Proof
end

