-- ==== Sys2Proof/Syntax.lean ====
section
/-! DEFINITION. The request and response records (spec/10_state.md rules R20, R21), the 22 operation names and the operand
formats (spec/30_encoding.md rules R47, R50), and `Instr`: one constructor per row of spec/opcode_table.json. -/

namespace Sys2Proof

/-- The request record (rule R20). -/
structure Request where
  op : OpCode
  A : Bus
  B : Bus
  N : Word32
  deriving DecidableEq, Repr

/-- The response record (rule R21). `C` is the one-bit condition. -/
structure Response where
  X : Bus
  Y : Bus
  S : Word32
  C : Bool
  deriving DecidableEq, Repr, Inhabited

/-- The operand formats of rule R50. -/
inductive Format where
  | WWC | LL | L | LN | W | EE | E
  deriving DecidableEq, Repr

/-- The 22 mnemonics of rule R47. -/
inductive Op where
  | ADDC | ADDF | ADDHI | NEG | SUB
  | MULF | MULLO | MULNH
  | SHBU | SHBD | SHLU | SHLD | SHU | SHD
  | LZL | HSB | CMP
  | DIVMOD
  | TO16 | FROM16
  | EQEXP | NORM
  deriving DecidableEq, Repr

/-- A request as the block reads it: the operation with the operand bits its format reads (rules R47, R50). The bits a
format does not read are ignored by the block and are not here. -/
inductive Instr where
  /-- 40_adder_negator.md rule R71; `n` is `carry_in`. -/
  | addc (a b : Limb) (n : Word32)
  /-- rule R72 -/
  | addf (a b : Limb128)
  /-- rule R73 -/
  | addhi (a b : Limb128)
  /-- rule R74 -/
  | neg (a : Limb128)
  /-- rule R75 -/
  | sub (a b : Limb128)
  /-- 41_multiplier.md rule R91 -/
  | mulf (a b : Limb128)
  /-- rule R93 -/
  | mullo (a b : Limb128)
  /-- rule R94 -/
  | mulnh (a b : Limb128)
  /-- 42_shifter.md rule R106 -/
  | shbu (a : Limb128) (n : Word32)
  /-- rule R107 -/
  | shbd (a : Limb128) (n : Word32)
  /-- rule R108 -/
  | shlu (a : Limb128) (n : Word32)
  /-- rule R109 -/
  | shld (a : Limb128) (n : Word32)
  /-- rule R110 -/
  | shu (a : Limb128) (n : Word32)
  /-- rule R111 -/
  | shd (a : Limb128) (n : Word32)
  /-- 43_lzc_comparator.md rule R126 -/
  | lzl (a : Limb128)
  /-- rule R127 -/
  | hsb (x : Limb)
  /-- rule R128 -/
  | cmp (a b : Limb128)
  /-- 44_divider.md rule R141 -/
  | divmod (a b : Limb128)
  /-- 45_reencoder.md rule R151 -/
  | to16 (a : Limb128)
  /-- rule R152 -/
  | from16 (w : Limb128x16)
  /-- 46_aligner_normaliser.md rule R161 -/
  | eqexp (v1 v2 : ExtFloat)
  /-- rule R166 -/
  | norm (x : ExtFloat)
  deriving DecidableEq, Repr

end Sys2Proof
end

