-- ==== Sys2Proof/Machine/Operands.lean ====
section
/-! DEFINITION. Every operand and result form: limbs and digits (spec/10_state.md rules R10 to R12), the placement of
values on the 192-bit fields (spec/30_encoding.md rule R49), the two's-complement scalar (rule R53), the flat request and
response words (rules R46, R48). -/

namespace Sys2Proof

/-- Limb `i` of a Limb128, limb 0 least significant (rule R10). -/
def limb (a : Limb128) (i : Nat) : Limb := a.extractLsb' (32 * i) 32

/-- Digit `k` of a Limb128x16, digit 0 least significant (rule R11). -/
def digit (w : Limb128x16) (k : Nat) : Digit := w.extractLsb' (16 * k) 16

/-- The Limb128 with the given limbs, least significant first. -/
def ofLimbs (l0 l1 l2 l3 : Limb) : Limb128 := l3 ++ l2 ++ l1 ++ l0

/-- The Limb128x16 with the given digits, least significant first. -/
def ofDigits (d0 d1 d2 d3 d4 d5 d6 d7 : Digit) : Limb128x16 :=
  d7 ++ d6 ++ d5 ++ d4 ++ d3 ++ d2 ++ d1 ++ d0

/-! Placement on a 192-bit field (rule R49). -/

/-- One limb at `[31:0]`, the rest 0 (R49, R52). -/
def Bus.ofLimb (x : Limb) : Bus := x.setWidth 192

/-- A Limb128 or a Limb128x16 at `[127:0]`, the rest 0 (R49, R52). -/
def Bus.ofWide (a : Limb128) : Bus := a.setWidth 192

/-- An ExtFloat: mantissa `[127:0]`, flags `[159:128]`, exponent `[191:160]` (R49). -/
def Bus.ofExt (v : ExtFloat) : Bus := v.exp ++ v.flags ++ v.mant

/-- The limb read from `[31:0]` (formats WWC, W of rule R50). -/
def Bus.limb (f : Bus) : Limb := f.extractLsb' 0 32

/-- The Limb128 or Limb128x16 read from `[127:0]` (formats LL, L, LN of rule R50). -/
def Bus.wide (f : Bus) : Limb128 := f.extractLsb' 0 128

/-- The flags word of the ExtFloat on a field, `[159:128]` (R58's `t.X.flags`). -/
def Bus.flags (f : Bus) : Word32 := f.extractLsb' 128 32

/-- The exponent of the ExtFloat on a field, `[191:160]` (R58's `t.X.exp`). -/
def Bus.exp (f : Bus) : Word32 := f.extractLsb' 160 32

/-- The ExtFloat read from all 192 bits (formats EE, E of rule R50). -/
def Bus.ext (f : Bus) : ExtFloat := ⟨Bus.wide f, Bus.flags f, Bus.exp f⟩

/-! The bits each kind of value takes on a field (rule R49), as masks for the tables of rules R50 and R51. -/

def Bus.limbMask : Bus := Bus.ofLimb (BitVec.allOnes 32)
def Bus.wideMask : Bus := Bus.ofWide (BitVec.allOnes 128)
def Bus.extMask : Bus := BitVec.allOnes 192

/-- `int32`: the 32-bit two's-complement encoding of a small signed integer (rules R8, R53). -/
def int32 (v : Int) : Word32 := BitVec.ofInt 32 v

/-! The flat words. -/

/-- `REQ[423:0]`: op at `[7:0]`, A at `[199:8]`, B at `[391:200]`, N at `[423:392]` (rule R46). -/
def Request.toWord (r : Request) : BitVec 424 := r.N ++ r.B ++ r.A ++ r.op

/-- The request a flat word holds (rule R46). -/
def Request.ofWord (w : BitVec 424) : Request :=
  ⟨w.extractLsb' 0 8, w.extractLsb' 8 192, w.extractLsb' 200 192, w.extractLsb' 392 32⟩

/-- `RSP[416:0]`: X at `[191:0]`, Y at `[383:192]`, S at `[415:384]`, C at bit 416 (rule R48). -/
def Response.toWord (r : Response) : BitVec 417 := BitVec.ofBool r.C ++ r.S ++ r.Y ++ r.X

/-- The response a flat word holds (rule R48). -/
def Response.ofWord (w : BitVec 417) : Response :=
  ⟨w.extractLsb' 0 192, w.extractLsb' 192 192, w.extractLsb' 384 32, w.getLsbD 416⟩

end Sys2Proof
end

