-- ==== Sys2Proof/Machine/Flags.lean ====
section
/-! DEFINITION. Every condition the spec computes: the one-bit condition `C` of a response (spec/10_state.md rule R19,
spec/60_exceptions.md rule R222) and the flags word of an ExtFloat (spec/10_state.md rules R15, R16). -/

namespace Sys2Proof

/-- The carry of a sum `t` out of `w` bits: bit `w` and above (rules R71, R72). -/
def carryOut (w t : Nat) : Bool := decide (2 ^ w ≤ t)

/-- `divide_by_zero` of DIVMOD: the divisor is zero (rules R141, R142). -/
def divideByZero (b : Limb128) : Bool := b == 0#128

/-- A Limb128 is zero (10_state.md rule R27). -/
def isZero (m : Limb128) : Bool := m == 0#128

namespace Flag

/-- Bit 0, 1 = negative. -/
def sign : Word32 := 0x00000001#32
/-- Bit 1, the "impossible outcome" error. -/
def impossible : Word32 := 0x00000002#32
/-- Bit 2, the zero-division error. -/
def zeroDiv : Word32 := 0x00000004#32
/-- Bit 3, reduced-precision division. -/
def redPrec : Word32 := 0x00000008#32

/-- The three error bits (60_exceptions.md rule R221). -/
def errors : Word32 := impossible ||| zeroDiv ||| redPrec

/-- A flags word with the error bits cleared: only `add`, `subtract` and `divide` set one (rule R221). -/
def withoutErrors (f : Word32) : Word32 := f &&& ~~~errors

/-- The sign of an ExtFloat, true for negative. -/
def signOf (v : ExtFloat) : Bool := v.flags.getLsbD 0

/-- A sign as the bit 0 of a flags word. -/
def ofSign (s : Bool) : Word32 := if s then sign else 0

/-- `nf(a, b)`: the OR of the non-sign bits (47_extfloat_client_ops.md rule R181). -/
def accumulate (a b : ExtFloat) : Word32 := (a.flags ||| b.flags) &&& 0xFFFFFFFE#32

end Flag
end Sys2Proof
end

