-- ==== Sys2Proof/WellFormed.lean ====
section
/-! DEFINITION. Well-formed requests (spec/30_encoding.md rules R50, R54, R55): the count of ADDC and of the six shifts must
be in its range; every other operand pattern is legal. -/

namespace Sys2Proof

/-- Why a request is not well-formed: exactly the cases of rule R55. -/
inductive IllFormed where
  /-- R55 (a): `op` is one of the 234 reserved codes (R56). Raised by the decoder. -/
  | reservedOp (code : OpCode)
  /-- R55 (b) to (e): the count `N` is outside the operation's range. Raised by the decoder, and by the meaning. -/
  | countOutOfRange (op : Op) (n : Word32)
  deriving DecidableEq, Repr

/-- The largest legal count of an operation that reads `N` (rule R50); `none` where any `N` is legal. -/
def Op.maxCount : Op → Option Nat
  | .ADDC => some 1
  | .SHBU => some 31
  | .SHBD => some 31
  | .SHLU => some 4
  | .SHLD => some 4
  | .SHU => some 128
  | .SHD => some 128
  | .ADDF | .ADDHI | .NEG | .SUB | .MULF | .MULLO | .MULNH | .LZL | .HSB | .CMP | .DIVMOD
  | .TO16 | .FROM16 | .EQEXP | .NORM => none

/-- Whether `n` is a legal count for the operation (rule R50). -/
def Op.countLegal (o : Op) (n : Word32) : Bool :=
  match o.maxCount with
  | none => true
  | some m => decide (n.toNat ≤ m)

/-- The operation of an instruction. -/
def Instr.op : Instr → Op
  | .addc _ _ _ => .ADDC
  | .addf _ _ => .ADDF
  | .addhi _ _ => .ADDHI
  | .neg _ => .NEG
  | .sub _ _ => .SUB
  | .mulf _ _ => .MULF
  | .mullo _ _ => .MULLO
  | .mulnh _ _ => .MULNH
  | .shbu _ _ => .SHBU
  | .shbd _ _ => .SHBD
  | .shlu _ _ => .SHLU
  | .shld _ _ => .SHLD
  | .shu _ _ => .SHU
  | .shd _ _ => .SHD
  | .lzl _ => .LZL
  | .hsb _ => .HSB
  | .cmp _ _ => .CMP
  | .divmod _ _ => .DIVMOD
  | .to16 _ => .TO16
  | .from16 _ => .FROM16
  | .eqexp _ _ => .EQEXP
  | .norm _ => .NORM

/-- The count operand of an instruction; 0 (unread) where its format reads none. -/
def Instr.count : Instr → Word32
  | .addc _ _ n => n
  | .shbu _ n => n
  | .shbd _ n => n
  | .shlu _ n => n
  | .shld _ n => n
  | .shu _ n => n
  | .shd _ n => n
  | .addf _ _ | .addhi _ _ | .neg _ | .sub _ _ | .mulf _ _ | .mullo _ _ | .mulnh _ _ | .lzl _ | .hsb _ | .cmp _ _
  | .divmod _ _ | .to16 _ | .from16 _ | .eqexp _ _ | .norm _ => 0

/-- Well-formed by rule R54: the count is legal for the operation. -/
def Instr.wellFormed (i : Instr) : Bool :=
  i.op.countLegal i.count

end Sys2Proof
end

