-- ==== Sys2Proof/Decode.lean ====
section
/-! DEFINITION. The operation codes and the decoder (spec/30_encoding.md rules R47, R50, R54 to R56), total on any request,
and the encoder written from the same tables. -/

namespace Sys2Proof

/-- The code of an operation: high nibble the unit, low nibble the function (rule R47). -/
def Op.code : Op → OpCode
  | .ADDC => 0x10#8
  | .ADDF => 0x11#8
  | .ADDHI => 0x12#8
  | .NEG => 0x13#8
  | .SUB => 0x14#8
  | .MULF => 0x20#8
  | .MULLO => 0x21#8
  | .MULNH => 0x22#8
  | .SHBU => 0x30#8
  | .SHBD => 0x31#8
  | .SHLU => 0x32#8
  | .SHLD => 0x33#8
  | .SHU => 0x34#8
  | .SHD => 0x35#8
  | .LZL => 0x40#8
  | .HSB => 0x41#8
  | .CMP => 0x42#8
  | .DIVMOD => 0x50#8
  | .TO16 => 0x60#8
  | .FROM16 => 0x61#8
  | .EQEXP => 0x70#8
  | .NORM => 0x71#8

/-- The `fmt` column of rule R47. -/
def Op.format : Op → Format
  | .ADDC => .WWC
  | .ADDF => .LL
  | .ADDHI => .LL
  | .NEG => .L
  | .SUB => .LL
  | .MULF => .LL
  | .MULLO => .LL
  | .MULNH => .LL
  | .SHBU => .LN
  | .SHBD => .LN
  | .SHLU => .LN
  | .SHLD => .LN
  | .SHU => .LN
  | .SHD => .LN
  | .LZL => .L
  | .HSB => .W
  | .CMP => .LL
  | .DIVMOD => .LL
  | .TO16 => .L
  | .FROM16 => .L
  | .EQEXP => .EE
  | .NORM => .E

/-- The 22 operations, in the table's order. -/
def Op.all : List Op :=
  [.ADDC, .ADDF, .ADDHI, .NEG, .SUB, .MULF, .MULLO, .MULNH, .SHBU, .SHBD, .SHLU] ++
  [.SHLD, .SHU, .SHD, .LZL, .HSB, .CMP, .DIVMOD, .TO16, .FROM16, .EQEXP, .NORM]

/-- The operation a code selects; `none` for the 234 reserved codes (rules R47, R56). -/
def Op.ofCode (c : OpCode) : Option Op := Op.all.find? fun o => o.code == c

/-- The instruction an operation reads from a request: the operand bits of its format and no others (rule R50). -/
def Op.read (o : Op) (r : Request) : Instr :=
  match o with
  | .ADDC => .addc (Bus.limb r.A) (Bus.limb r.B) r.N
  | .ADDF => .addf (Bus.wide r.A) (Bus.wide r.B)
  | .ADDHI => .addhi (Bus.wide r.A) (Bus.wide r.B)
  | .NEG => .neg (Bus.wide r.A)
  | .SUB => .sub (Bus.wide r.A) (Bus.wide r.B)
  | .MULF => .mulf (Bus.wide r.A) (Bus.wide r.B)
  | .MULLO => .mullo (Bus.wide r.A) (Bus.wide r.B)
  | .MULNH => .mulnh (Bus.wide r.A) (Bus.wide r.B)
  | .SHBU => .shbu (Bus.wide r.A) r.N
  | .SHBD => .shbd (Bus.wide r.A) r.N
  | .SHLU => .shlu (Bus.wide r.A) r.N
  | .SHLD => .shld (Bus.wide r.A) r.N
  | .SHU => .shu (Bus.wide r.A) r.N
  | .SHD => .shd (Bus.wide r.A) r.N
  | .LZL => .lzl (Bus.wide r.A)
  | .HSB => .hsb (Bus.limb r.A)
  | .CMP => .cmp (Bus.wide r.A) (Bus.wide r.B)
  | .DIVMOD => .divmod (Bus.wide r.A) (Bus.wide r.B)
  | .TO16 => .to16 (Bus.wide r.A)
  | .FROM16 => .from16 (Bus.wide r.A)
  | .EQEXP => .eqexp (Bus.ext r.A) (Bus.ext r.B)
  | .NORM => .norm (Bus.ext r.A)

/-- The decoder, total on every request: the instruction, or the reason of rule R55. -/
def decode (r : Request) : Except IllFormed Instr :=
  match Op.ofCode r.op with
  | none => .error (.reservedOp r.op)
  | some o => if o.countLegal r.N then .ok (o.read r) else .error (.countOutOfRange o r.N)

/-- The decoder on the flat word `REQ[423:0]` (rule R46). -/
def decodeWord (w : BitVec 424) : Except IllFormed Instr := decode (Request.ofWord w)

/-- The request of an instruction: its code, its operands where rule R49 places them, every unread bit 0 (rule R58). -/
def encode (i : Instr) : Request :=
  match i with
  | .addc a b n => ⟨Op.ADDC.code, Bus.ofLimb a, Bus.ofLimb b, n⟩
  | .addf a b => ⟨Op.ADDF.code, Bus.ofWide a, Bus.ofWide b, 0⟩
  | .addhi a b => ⟨Op.ADDHI.code, Bus.ofWide a, Bus.ofWide b, 0⟩
  | .neg a => ⟨Op.NEG.code, Bus.ofWide a, 0, 0⟩
  | .sub a b => ⟨Op.SUB.code, Bus.ofWide a, Bus.ofWide b, 0⟩
  | .mulf a b => ⟨Op.MULF.code, Bus.ofWide a, Bus.ofWide b, 0⟩
  | .mullo a b => ⟨Op.MULLO.code, Bus.ofWide a, Bus.ofWide b, 0⟩
  | .mulnh a b => ⟨Op.MULNH.code, Bus.ofWide a, Bus.ofWide b, 0⟩
  | .shbu a n => ⟨Op.SHBU.code, Bus.ofWide a, 0, n⟩
  | .shbd a n => ⟨Op.SHBD.code, Bus.ofWide a, 0, n⟩
  | .shlu a n => ⟨Op.SHLU.code, Bus.ofWide a, 0, n⟩
  | .shld a n => ⟨Op.SHLD.code, Bus.ofWide a, 0, n⟩
  | .shu a n => ⟨Op.SHU.code, Bus.ofWide a, 0, n⟩
  | .shd a n => ⟨Op.SHD.code, Bus.ofWide a, 0, n⟩
  | .lzl a => ⟨Op.LZL.code, Bus.ofWide a, 0, 0⟩
  | .hsb x => ⟨Op.HSB.code, Bus.ofLimb x, 0, 0⟩
  | .cmp a b => ⟨Op.CMP.code, Bus.ofWide a, Bus.ofWide b, 0⟩
  | .divmod a b => ⟨Op.DIVMOD.code, Bus.ofWide a, Bus.ofWide b, 0⟩
  | .to16 a => ⟨Op.TO16.code, Bus.ofWide a, 0, 0⟩
  | .from16 w => ⟨Op.FROM16.code, Bus.ofWide w, 0, 0⟩
  | .eqexp v1 v2 => ⟨Op.EQEXP.code, Bus.ofExt v1, Bus.ofExt v2, 0⟩
  | .norm x => ⟨Op.NORM.code, Bus.ofExt x, 0, 0⟩

/-- The flat word of an instruction (rule R46). -/
def encodeWord (i : Instr) : BitVec 424 := (encode i).toWord

/-- The request whose flat word has the low `nbits` bits of `w` and zeros above (the host's numbering of the opcode table
is the numbering of `REQ`). -/
def tableRequest (nbits w : Nat) : Request := Request.ofWord (BitVec.ofNat 424 (w % 2 ^ nbits))

/-- The instruction the decoder reads from a word of the opcode table. -/
def decodeTableWord (nbits w : Nat) : Option Instr := (decode (tableRequest nbits w)).toOption

/-! What a format reads (rule R50), as masks on the request fields; used by the statements about ignored bits. -/

/-- The bits of `A` a format reads. -/
def Format.readsA : Format → Bus
  | .WWC => Bus.limbMask
  | .LL => Bus.wideMask
  | .L => Bus.wideMask
  | .LN => Bus.wideMask
  | .W => Bus.limbMask
  | .EE => Bus.extMask
  | .E => Bus.extMask

/-- The bits of `B` a format reads. -/
def Format.readsB : Format → Bus
  | .WWC => Bus.limbMask
  | .LL => Bus.wideMask
  | .L => 0
  | .LN => 0
  | .W => 0
  | .EE => Bus.extMask
  | .E => 0

/-- Whether a format reads `N`. -/
def Format.readsN : Format → Bool
  | .WWC => true
  | .LN => true
  | .LL | .L | .W | .EE | .E => false

/-- A request with the bits its operation ignores cleared; a request with a reserved code is left as it is. -/
def Request.onlyRead (r : Request) : Request :=
  match Op.ofCode r.op with
  | none => r
  | some o =>
    { op := r.op
      A := r.A &&& o.format.readsA
      B := r.B &&& o.format.readsB
      N := if o.format.readsN then r.N else 0 }

end Sys2Proof
end

