-- ==== Sys2Proof/Machine/State.lean ====
section
/-! DEFINITION. The state of the machine. The block itself keeps nothing between transactions (spec/10_state.md rules R17
to R26); the two fields are the two ends of its interface, the model's own (log entries 1 and 4). -/

namespace Sys2Proof.Machine

/-- The state: plain data. -/
structure State where
  /-- The requests the client has presented and the block has not taken, oldest first. -/
  pending : List Request
  /-- The responses given so far, oldest first. The block never reads it (10_state.md rule R25). -/
  responses : List Response
  deriving DecidableEq, Repr

/-- The block raises nothing (60_exceptions.md rules R220, R224): no constructor, so no step can end in a fault. -/
inductive Fault where
  deriving DecidableEq, Repr

/-- Why a step gives no response. -/
inductive Refusal where
  /-- An instruction that has no meaning yet; no arm of `exec` raises it. Safe. -/
  | notModelled (mnemonic : String)
  /-- A request that is not well-formed (30_encoding.md rule R55). Raised by the step on a reserved code or a count out
  of range, and by the meanings of ADDC and of the six shifts on such a count. Safe: no response is claimed. -/
  | illFormedRequest (why : IllFormed)
  deriving DecidableEq, Repr

/-- After reset the block is idle: no request is in hand and no response has been given (10_state.md rule R26,
70_reset_and_hazards.md rule R240; log entry 4). -/
def State.reset : State where
  pending := []
  responses := []

end Sys2Proof.Machine
end

