-- ==== Sys2Proof/Machine/Ops.lean ====
section
/-! DEFINITION. The named operations on the state: taking a request, giving a response, refusing one, presenting one. The
block takes no exception and returns from none (spec/60_exceptions.md rules R224, R227, R228), so there is no operation for
either. -/

namespace Sys2Proof.Machine

/-- What a step or a meaning answers. -/
abbrev Answer := Host.Outcome State Fault Refusal

/-- The block gives a response: exactly one, after those it gave before (70_reset_and_hazards.md rule R252). -/
def respond (r : Response) (s : State) : Answer :=
  .next { s with responses := s.responses ++ [r] }

/-- A request that is not well-formed has no response (30_encoding.md rule R55). -/
def refuse (why : IllFormed) : Answer := .refused (.illFormedRequest why)

/-- The response of an operation that reads a count, if the count is legal for it (rules R50, R55). -/
def respondCounted (o : Op) (n : Word32) (r : Response) (s : State) : Answer :=
  if o.countLegal n then respond r s else refuse (.countOutOfRange o n)

/-- The block takes the oldest pending request. -/
def takeRequest (s : State) : Option (Request × State) :=
  match s.pending with
  | [] => none
  | r :: rest => some (r, { s with pending := rest })

/-- With no request in hand the block stays idle (70_reset_and_hazards.md rule R240; log entry 2). -/
def idle (s : State) : Answer := .next s

/-- The client presents a request, after those already pending. -/
def present (r : Request) (s : State) : State := { s with pending := s.pending ++ [r] }

/-- A request put before those pending, so that the next step takes it. -/
def presentFirst (r : Request) (s : State) : State := { s with pending := r :: s.pending }

end Sys2Proof.Machine
end

