-- ==== Sys2Proof/Machine/Adder.lean ====
section
/-! DEFINITION. The multi-limb carry-propagate adder and the two's-complement negator (spec/40_adder_negator.md). -/

namespace Sys2Proof

/-- `add_with_carry` (rule R71), the carry-in 0 or 1. -/
def addWithCarry (a b : Limb) (cin : Nat) : Limb × Bool :=
  let t := a.toNat + b.toNat + cin
  (BitVec.ofNat 32 (t % 2 ^ 32), carryOut 32 t)

/-- `add_full`: the ripple over the four limbs, the carry into limb 0 being 0 (rule R72). Sum and carry are the exact sum,
unsigned, and it commutes (rule R77 (a), (b), (f)): `addFull_toNat`, `addFull_comm`. -/
def addFull (a b : Limb128) : Limb128 × Bool :=
  let r0 := addWithCarry (limb a 0) (limb b 0) 0
  let r1 := addWithCarry (limb a 1) (limb b 1) r0.2.toNat
  let r2 := addWithCarry (limb a 2) (limb b 2) r1.2.toNat
  let r3 := addWithCarry (limb a 3) (limb b 3) r2.2.toNat
  (ofLimbs r0.1 r1.1 r2.1 r3.1, r3.2)

/-- `add_hi`: on a carry the lowest limb is dropped and the carry becomes the top limb (rules R73, R76). It truncates the
true sum, never rounds it (rule R77 (e)). -/
def addHi (a b : Limb128) : Limb128 × Bool :=
  let s := addFull a b
  if s.2 then (ofLimbs (limb s.1 1) (limb s.1 2) (limb s.1 3) 1#32, true) else (s.1, false)

/-- `negate`: the limb-wise complement, plus 1 rippled across the limbs, the carry out dropped (rule R74). -/
def negate (a : Limb128) : Limb128 :=
  (addFull (ofLimbs (~~~limb a 0) (~~~limb a 1) (~~~limb a 2) (~~~limb a 3)) 1#128).1

/-- `subtract`: `a + negate(b)`, the carry dropped (rule R75; rule R77 (c), (d)). -/
def subtract (a b : Limb128) : Limb128 := (addFull a (negate b)).1

namespace Machine

/-! The responses (rules R51, R52). -/

def addcRsp (a b : Limb) (n : Word32) : Response :=
  let r := addWithCarry a b n.toNat
  { X := Bus.ofLimb r.1, Y := 0, S := 0, C := r.2 }

def addfRsp (a b : Limb128) : Response :=
  let r := addFull a b
  { X := Bus.ofWide r.1, Y := 0, S := 0, C := r.2 }

def addhiRsp (a b : Limb128) : Response :=
  let r := addHi a b
  { X := Bus.ofWide r.1, Y := 0, S := 0, C := r.2 }

def negRsp (a : Limb128) : Response :=
  { X := Bus.ofWide (negate a), Y := 0, S := 0, C := false }

def subRsp (a b : Limb128) : Response :=
  { X := Bus.ofWide (subtract a b), Y := 0, S := 0, C := false }

/-- ADDC (rule R71). -/
def execAddc (a b : Limb) (n : Word32) (s : State) : Answer := respondCounted .ADDC n (addcRsp a b n) s

/-- ADDF (rule R72). -/
def execAddf (a b : Limb128) (s : State) : Answer := respond (addfRsp a b) s

/-- ADDHI (rule R73). -/
def execAddhi (a b : Limb128) (s : State) : Answer := respond (addhiRsp a b) s

/-- NEG (rule R74). -/
def execNeg (a : Limb128) (s : State) : Answer := respond (negRsp a) s

/-- SUB (rule R75). -/
def execSub (a b : Limb128) (s : State) : Answer := respond (subRsp a b) s

end Machine
end Sys2Proof
end

