-- ==== Sys2Proof/Machine/Counter.lean ====
section
/-! DEFINITION. The leading-zero counter and the lexicographic comparator (spec/43_lzc_comparator.md). -/

namespace Sys2Proof

/-- `leading_zero_limbs`, 0..4 (rule R126); it bounds the value (rule R130 (a)). -/
def leadingZeroLimbs (a : Limb128) : Nat :=
  if limb a 3 ≠ 0#32 then 0
  else if limb a 2 ≠ 0#32 then 1
  else if limb a 1 ≠ 0#32 then 2
  else if limb a 0 ≠ 0#32 then 3
  else 4

/-- The largest index below `w` whose bit is set in `v`, scanning down; `none` if there is none. -/
def highestBelow (v : Nat) : Nat → Option Nat
  | 0 => none
  | k + 1 => if v.testBit k then some k else highestBelow v k

/-- `highest_set_bit`, -1..31: the sentinel -1 for zero (rules R127, R130 (b)). -/
def highestSetBit (x : Limb) : Int :=
  match highestBelow x.toNat 32 with
  | none => -1
  | some k => k

/-- The leading-zero bit count of a non-zero Limb128, 0..127, as NORM forms it (rule R129): the one shift amount that sets
bit 127 and loses no bit (rule R130 (d)). -/
def leadingZeroBits (a : Limb128) : Nat :=
  let z := leadingZeroLimbs a
  32 * z + (31 - highestSetBit (limb a (3 - z))).toNat

/-- The comparison of the limbs with the given indices, in that order, each as an unsigned integer (rule R128). -/
def compareLimbs (a b : Limb128) : List Nat → Int
  | [] => 0
  | i :: is =>
    if limb b i < limb a i then 1
    else if limb a i < limb b i then -1
    else compareLimbs a b is

/-- `compare`: lexicographic, most significant limb first (rule R128), which is the order of the values (rule R130 (c)). -/
def compare3 (a b : Limb128) : Int := compareLimbs a b [3, 2, 1, 0]

namespace Machine

def lzlRsp (a : Limb128) : Response :=
  { X := 0, Y := 0, S := int32 (leadingZeroLimbs a), C := false }

def hsbRsp (x : Limb) : Response :=
  { X := 0, Y := 0, S := int32 (highestSetBit x), C := false }

def cmpRsp (a b : Limb128) : Response :=
  { X := 0, Y := 0, S := int32 (compare3 a b), C := false }

/-- LZL (rule R126). -/
def execLzl (a : Limb128) (s : State) : Answer := respond (lzlRsp a) s

/-- HSB (rule R127). -/
def execHsb (x : Limb) (s : State) : Answer := respond (hsbRsp x) s

/-- CMP (rule R128). -/
def execCmp (a b : Limb128) (s : State) : Answer := respond (cmpRsp a b) s

end Machine
end Sys2Proof
end

