-- ==== Sys2Proof/Machine/Defaults.lean ====
section
/-! DEFINITION. The values the spec gives the open parameters (spec/00_scope.md rule R7; spec/92_eei_decisions.md section
5), with the native binary32 reciprocal the client uses (spec/93_implementation_defined.md G3, U8). -/

namespace Sys2Proof

/-- `EQEXP_FAR`, default zero (46_aligner_normaliser.md rule R163). -/
def eqexpFarZero (_m : Limb128) (_d : Nat) : Limb128 := 0#128

/-- `ADD_EQUAL_SIGN`, default 0 (47_extfloat_client_ops.md rule R185). -/
def addEqualSignPlus (_a _b : ExtFloat) : Bool := false

/-- `MUL_EXP_ADJ`, default -128 (rule R190; 90_conflicts.md C1). -/
def mulExpAdjMinus128 : Word32 := BitVec.ofInt 32 (-128)

namespace F32

/-- The sign bit of a binary32 pattern. -/
def signBit (g : Word32) : Bool := g.getLsbD 31
/-- The exponent bits `[30:23]`. -/
def expBits (g : Word32) : Nat := (g.extractLsb' 23 8).toNat
/-- The fraction bits `[22:0]`. -/
def fraction (g : Word32) : Nat := (g.extractLsb' 0 23).toNat
/-- A normal number: exponent bits 1..254. -/
def isNormal (g : Word32) : Bool := decide (1 ≤ expBits g ∧ expBits g ≤ 254)
/-- Plus or minus 0.0. -/
def isZero (g : Word32) : Bool := g.extractLsb' 0 31 == 0#31
/-- The pattern with the given sign, exponent bits and fraction. -/
def pack (s : Bool) (e f : Nat) : Word32 := BitVec.ofBool s ++ BitVec.ofNat 8 e ++ BitVec.ofNat 23 f

/-- `1.0 / g` for a normal `g`, rounded to nearest (no tie can occur: the significand of a non-power of two does not
divide a power of two twice); `none` where the result is not a normal number. -/
def normalRecip (g : Word32) : Option Word32 :=
  let e := expBits g
  let m := 2 ^ 23 + fraction g
  if fraction g = 0 then
    if e ≤ 253 then some (pack (signBit g) (254 - e) 0) else none
  else if e ≤ 252 then
    some (pack (signBit g) (253 - e) ((2 ^ 48 / m + 1) / 2 - 2 ^ 23))
  else none

/-- The native reciprocal: binary32 where operand and result are normal numbers, otherwise a free value (log entry 11). -/
def recip (g : Word32) : Word32 :=
  if isNormal g then (normalRecip g).getD (Config.f32RecipOpen g) else Config.f32RecipOpen g

end F32

/-- The smallest positive binary32 number is 2^-149 (93_implementation_defined.md G3; log entry 12). -/
def f32ZeroBelowBinary32 : Int := -149

/-- The parameters at the values the spec gives them; the rest free values. -/
def defaults : Config.Params where
  eqexpFar := eqexpFarZero
  addEqualSign := addEqualSignPlus
  mulExpAdj := mulExpAdjMinus128
  divSeedCanon := Config.divSeedCanon
  f32Recip := F32.recip
  f32ZeroBelow := f32ZeroBelowBinary32
  extToF32Open := Config.extToF32Open
  f32ToExtOpen := Config.f32ToExtOpen

end Sys2Proof
end

