-- ==== Sys2Proof/Machine/Shifter.lean ====
section
/-! DEFINITION. The wide shifter (spec/42_shifter.md): every shift is logical, vacated positions are 0 (rule R105). -/

namespace Sys2Proof

/-- `shift_bits_up`, 0..31 (rule R106). -/
def shiftBitsUp (a : Limb128) (n : Nat) : Limb128 := BitVec.ofNat 128 (a.toNat * 2 ^ n % 2 ^ 128)

/-- `shift_bits_down`, 0..31 (rule R107). -/
def shiftBitsDown (a : Limb128) (n : Nat) : Limb128 := BitVec.ofNat 128 (a.toNat / 2 ^ n)

/-- Limb `i` of a shift up by `n` limbs (rule R108). -/
def limbUp (a : Limb128) (n i : Nat) : Limb := if n ≤ i then limb a (i - n) else 0#32

/-- `shift_limbs_up`, 0..4 (rule R108). -/
def shiftLimbsUp (a : Limb128) (n : Nat) : Limb128 :=
  ofLimbs (limbUp a n 0) (limbUp a n 1) (limbUp a n 2) (limbUp a n 3)

/-- Limb `i` of a shift down by `n` limbs (rule R109). -/
def limbDown (a : Limb128) (n i : Nat) : Limb := if i + n ≤ 3 then limb a (i + n) else 0#32

/-- `shift_limbs_down`, 0..4 (rule R109). -/
def shiftLimbsDown (a : Limb128) (n : Nat) : Limb128 :=
  ofLimbs (limbDown a n 0) (limbDown a n 1) (limbDown a n 2) (limbDown a n 3)

/-- `shift_up`, 0..128: whole limbs, then bits (rule R110). -/
def shiftUp (a : Limb128) (n : Nat) : Limb128 := shiftBitsUp (shiftLimbsUp a (n / 32)) (n % 32)

/-- `shift_down`, 0..128: whole limbs, then bits (rule R111). -/
def shiftDown (a : Limb128) (n : Nat) : Limb128 := shiftBitsDown (shiftLimbsDown a (n / 32)) (n % 32)

namespace Machine

/-- The response of a shift: the result on `X`, nothing else (rule R105). -/
def shiftRsp (r : Limb128) : Response := { X := Bus.ofWide r, Y := 0, S := 0, C := false }

def shbuRsp (a : Limb128) (n : Word32) : Response := shiftRsp (shiftBitsUp a n.toNat)
def shbdRsp (a : Limb128) (n : Word32) : Response := shiftRsp (shiftBitsDown a n.toNat)
def shluRsp (a : Limb128) (n : Word32) : Response := shiftRsp (shiftLimbsUp a n.toNat)
def shldRsp (a : Limb128) (n : Word32) : Response := shiftRsp (shiftLimbsDown a n.toNat)
def shuRsp (a : Limb128) (n : Word32) : Response := shiftRsp (shiftUp a n.toNat)
def shdRsp (a : Limb128) (n : Word32) : Response := shiftRsp (shiftDown a n.toNat)

/-- SHBU (rule R106). -/
def execShbu (a : Limb128) (n : Word32) (s : State) : Answer := respondCounted .SHBU n (shbuRsp a n) s

/-- SHBD (rule R107). -/
def execShbd (a : Limb128) (n : Word32) (s : State) : Answer := respondCounted .SHBD n (shbdRsp a n) s

/-- SHLU (rule R108). -/
def execShlu (a : Limb128) (n : Word32) (s : State) : Answer := respondCounted .SHLU n (shluRsp a n) s

/-- SHLD (rule R109). -/
def execShld (a : Limb128) (n : Word32) (s : State) : Answer := respondCounted .SHLD n (shldRsp a n) s

/-- SHU (rule R110). -/
def execShu (a : Limb128) (n : Word32) (s : State) : Answer := respondCounted .SHU n (shuRsp a n) s

/-- SHD (rule R111). -/
def execShd (a : Limb128) (n : Word32) (s : State) : Answer := respondCounted .SHD n (shdRsp a n) s

end Machine
end Sys2Proof
end

