-- ==== Sys2Proof/Machine/Aligner.lean ====
section
/-! DEFINITION. The exponent aligner and the mantissa normaliser (spec/46_aligner_normaliser.md). Both are total on every
pattern; neither sets, clears or tests a flag bit (rule R160). -/

namespace Sys2Proof

/-- `align_down`: `shift_down` up to distance 128, the parameter `EQEXP_FAR` beyond (rule R163). -/
def alignDown (far : Limb128 → Nat → Limb128) (m : Limb128) (d : Nat) : Limb128 :=
  if d ≤ 128 then shiftDown m d else far m d

/-- Step 1 of EQEXP, the exponents after the zero special case (rule R161). -/
def alignExps (v1 v2 : ExtFloat) : Word32 × Word32 :=
  if isZero v1.mant ∧ isZero v2.mant then (Config.zeroExp, Config.zeroExp)
  else if isZero v1.mant then (v2.exp, v2.exp)
  else if isZero v2.mant then (v1.exp, v1.exp)
  else (v1.exp, v2.exp)

/-- `equalize_exp` with the parameter `EQEXP_FAR` as an argument (rules R161, R162). -/
def equalizeExp (far : Limb128 → Nat → Limb128) (v1 v2 : ExtFloat) : ExtFloat × ExtFloat :=
  let e := alignExps v1 v2
  if e.2.toNat ≤ e.1.toNat then
    (⟨v1.mant, v1.flags, e.1⟩, ⟨alignDown far v2.mant (e.1.toNat - e.2.toNat), v2.flags, e.1⟩)
  else
    (⟨alignDown far v1.mant (e.2.toNat - e.1.toNat), v1.flags, e.2⟩, ⟨v2.mant, v2.flags, e.2⟩)

/-- `normalize` (rules R166 to R168): the exponent subtraction is modulo 2^32. -/
def normalizeExt (x : ExtFloat) : ExtFloat :=
  if leadingZeroLimbs x.mant = 4 then x
  else
    let k := leadingZeroBits x.mant
    ⟨shiftUp x.mant k, x.flags, x.exp - BitVec.ofNat 32 k⟩

namespace Machine

def eqexpRsp (far : Limb128 → Nat → Limb128) (v1 v2 : ExtFloat) : Response :=
  let r := equalizeExp far v1 v2
  { X := Bus.ofExt r.1, Y := Bus.ofExt r.2, S := 0, C := false }

def normRsp (x : ExtFloat) : Response := { X := Bus.ofExt (normalizeExt x), Y := 0, S := 0, C := false }

/-- EQEXP (rule R161), with `EQEXP_FAR` as the spec fixes it (rule R163; log entry 6). -/
def execEqexp (v1 v2 : ExtFloat) (s : State) : Answer := respond (eqexpRsp defaults.eqexpFar v1 v2) s

/-- NORM (rule R166). -/
def execNorm (x : ExtFloat) (s : State) : Answer := respond (normRsp x) s

end Machine
end Sys2Proof
end

