-- ==== Sys2Proof/Machine/Divider.lean ====
section
/-! DEFINITION. The quotient-remainder engine (spec/44_divider.md) by rule R141; the reference algorithm of rule R143 stands
in Reference.lean. -/

namespace Sys2Proof

/-- `divmod`: floor quotient, remainder, `divide_by_zero`; all-ones sentinels on a zero divisor (rules R141, R142). -/
def divmod (a b : Limb128) : Limb128 × Limb128 × Bool :=
  if divideByZero b then (BitVec.allOnes 128, BitVec.allOnes 128, true)
  else (BitVec.ofNat 128 (a.toNat / b.toNat), BitVec.ofNat 128 (a.toNat % b.toNat), false)

namespace Machine

def divmodRsp (a b : Limb128) : Response :=
  let r := divmod a b
  { X := Bus.ofWide r.1, Y := Bus.ofWide r.2.1, S := 0, C := r.2.2 }

/-- DIVMOD (rule R141). -/
def execDivmod (a b : Limb128) (s : State) : Answer := respond (divmodRsp a b) s

end Machine
end Sys2Proof
end

