-- ==== Sys2Proof/Machine/Multiplier.lean ====
section
/-! DEFINITION. The widening multiplier (spec/41_multiplier.md), by the true integer product; the digit lattice of rule R92
stands in Reference.lean. -/

namespace Sys2Proof

/-- The true product `P`, below 2^256 (rule R90). -/
def product (a b : Limb128) : Nat := a.toNat * b.toNat

/-- `multiply_full`: `(hi, lo)` (rule R91). -/
def multiplyFull (a b : Limb128) : Limb128 × Limb128 :=
  (BitVec.ofNat 128 (product a b / 2 ^ 128), BitVec.ofNat 128 (product a b % 2 ^ 128))

/-- `multiply_lo`, the low half (rule R93). -/
def multiplyLo (a b : Limb128) : Limb128 := (multiplyFull a b).2

/-- The leading zeros of a product in 256 bits, `total_shift` (rule R94). -/
def productShift (P : Nat) : Nat := 255 - (highestBelow P 256).getD 0

/-- `multiply_normalized_hi`: the top 128 bits of the normalised product, and `128 - total_shift` modulo 2^32
(rule R94; 90_conflicts.md C2). -/
def multiplyNormalizedHi (a b : Limb128) : Limb128 × Word32 :=
  let P := product a b
  if P = 0 then (0#128, 0#32)
  else
    let sh := productShift P
    (BitVec.ofNat 128 (P * 2 ^ sh / 2 ^ 128), int32 (128 - (sh : Int)))

namespace Machine

def mulfRsp (a b : Limb128) : Response :=
  let r := multiplyFull a b
  { X := Bus.ofWide r.1, Y := Bus.ofWide r.2, S := 0, C := false }

def mulloRsp (a b : Limb128) : Response :=
  { X := Bus.ofWide (multiplyLo a b), Y := 0, S := 0, C := false }

def mulnhRsp (a b : Limb128) : Response :=
  let r := multiplyNormalizedHi a b
  { X := Bus.ofWide r.1, Y := 0, S := r.2, C := false }

/-- MULF (rule R91). -/
def execMulf (a b : Limb128) (s : State) : Answer := respond (mulfRsp a b) s

/-- MULLO (rule R93). -/
def execMullo (a b : Limb128) (s : State) : Answer := respond (mulloRsp a b) s

/-- MULNH (rule R94). -/
def execMulnh (a b : Limb128) (s : State) : Answer := respond (mulnhRsp a b) s

end Machine
end Sys2Proof
end

