-- ==== Sys2Proof/Machine/Reencoder.lean ====
section
/-! DEFINITION. The 128-bit to 16-bit-limb re-encoder (spec/45_reencoder.md). -/

namespace Sys2Proof

/-- The low half of a limb (rule R151). -/
def lowDigit (l : Limb) : Digit := BitVec.ofNat 16 (l.toNat % 2 ^ 16)

/-- The high half of a limb (rule R151). -/
def highDigit (l : Limb) : Digit := BitVec.ofNat 16 (l.toNat / 2 ^ 16)

/-- The limb of two digits (rule R152). -/
def joinDigits (lo hi : Digit) : Limb := BitVec.ofNat 32 (lo.toNat + hi.toNat * 2 ^ 16)

/-- `to16`: each limb splits into two digits (rule R151). -/
def to16 (a : Limb128) : Limb128x16 :=
  ofDigits (lowDigit (limb a 0)) (highDigit (limb a 0)) (lowDigit (limb a 1)) (highDigit (limb a 1))
    (lowDigit (limb a 2)) (highDigit (limb a 2)) (lowDigit (limb a 3)) (highDigit (limb a 3))

/-- `from16`: digits `2i` and `2i+1` make limb `i` (rule R152). -/
def from16 (w : Limb128x16) : Limb128 :=
  ofLimbs (joinDigits (digit w 0) (digit w 1)) (joinDigits (digit w 2) (digit w 3))
    (joinDigits (digit w 4) (digit w 5)) (joinDigits (digit w 6) (digit w 7))

namespace Machine

def to16Rsp (a : Limb128) : Response := { X := Bus.ofWide (to16 a), Y := 0, S := 0, C := false }

def from16Rsp (w : Limb128x16) : Response := { X := Bus.ofWide (from16 w), Y := 0, S := 0, C := false }

/-- TO16 (rule R151). -/
def execTo16 (a : Limb128) (s : State) : Answer := respond (to16Rsp a) s

/-- FROM16 (rule R152). -/
def execFrom16 (w : Limb128x16) (s : State) : Answer := respond (from16Rsp w) s

end Machine
end Sys2Proof
end

