-- ==== Sys2Proof/Machine/Dispatch.lean ====
section
/-! DEFINITION. The meaning of every instruction: one arm per constructor of Instr, one direct call each. -/

namespace Sys2Proof.Machine

def exec (i : Instr) (s : State) : Host.Outcome State Fault Refusal :=
  match i with
  | .addc a b n => Sys2Proof.Machine.execAddc a b n s
  | .addf a b => Sys2Proof.Machine.execAddf a b s
  | .addhi a b => Sys2Proof.Machine.execAddhi a b s
  | .neg a => Sys2Proof.Machine.execNeg a s
  | .sub a b => Sys2Proof.Machine.execSub a b s
  | .mulf a b => Sys2Proof.Machine.execMulf a b s
  | .mullo a b => Sys2Proof.Machine.execMullo a b s
  | .mulnh a b => Sys2Proof.Machine.execMulnh a b s
  | .shbu a n => Sys2Proof.Machine.execShbu a n s
  | .shbd a n => Sys2Proof.Machine.execShbd a n s
  | .shlu a n => Sys2Proof.Machine.execShlu a n s
  | .shld a n => Sys2Proof.Machine.execShld a n s
  | .shu a n => Sys2Proof.Machine.execShu a n s
  | .shd a n => Sys2Proof.Machine.execShd a n s
  | .lzl a => Sys2Proof.Machine.execLzl a s
  | .hsb x => Sys2Proof.Machine.execHsb x s
  | .cmp a b => Sys2Proof.Machine.execCmp a b s
  | .divmod a b => Sys2Proof.Machine.execDivmod a b s
  | .to16 a => Sys2Proof.Machine.execTo16 a s
  | .from16 w => Sys2Proof.Machine.execFrom16 w s
  | .eqexp v1 v2 => Sys2Proof.Machine.execEqexp v1 v2 s
  | .norm x => Sys2Proof.Machine.execNorm x s

end Sys2Proof.Machine
end

