-- ==== Sys2Proof/Machine/Step.lean ====
section
/-! DEFINITION. One step is one transaction: the block takes the oldest pending request and gives its response
(spec/20_memory.md rule R36, spec/70_reset_and_hazards.md rules R241, R252). -/

namespace Sys2Proof.Machine

/-- One step: idle with no request; otherwise take the request, decode it, and run it, or refuse it. -/
def step (s : State) : Host.Outcome State Fault Refusal :=
  match takeRequest s with
  | none => idle s
  | some (r, s') =>
    match decode r with
    | .ok i => exec i s'
    | .error why => refuse why

/-- The state with the opcode-table word's request put where the next step takes its request (log entry 3). -/
def State.withFetchWord (s : State) (nbits w : Nat) : State := presentFirst (tableRequest nbits w) s

end Sys2Proof.Machine
end

