-- ==== Sys2Proof/Machine/Answer.lean ====
section
/-! DEFINITION. The block's meaning as the spec says it: a function from well-formed requests to responses
(spec/30_encoding.md rule R54, spec/10_state.md rule R17), over the same responses the meanings give. -/

namespace Sys2Proof.Machine

/-- The response of an operation whose count, where it reads one, is legal. -/
def answer : Instr → Response
  | .addc a b n => addcRsp a b n
  | .addf a b => addfRsp a b
  | .addhi a b => addhiRsp a b
  | .neg a => negRsp a
  | .sub a b => subRsp a b
  | .mulf a b => mulfRsp a b
  | .mullo a b => mulloRsp a b
  | .mulnh a b => mulnhRsp a b
  | .shbu a n => shbuRsp a n
  | .shbd a n => shbdRsp a n
  | .shlu a n => shluRsp a n
  | .shld a n => shldRsp a n
  | .shu a n => shuRsp a n
  | .shd a n => shdRsp a n
  | .lzl a => lzlRsp a
  | .hsb x => hsbRsp x
  | .cmp a b => cmpRsp a b
  | .divmod a b => divmodRsp a b
  | .to16 a => to16Rsp a
  | .from16 w => from16Rsp w
  | .eqexp v1 v2 => eqexpRsp defaults.eqexpFar v1 v2
  | .norm x => normRsp x

/-- The response to a request, if it is well-formed (rule R54). -/
def answerRequest (r : Request) : Option Response := (decode r).toOption.map answer

/-! What an operation drives (rule R51), as a mask; every other response bit is 0 (rule R52). -/

/-- All 32 bits of `S`. -/
def scalarMask : Word32 := BitVec.allOnes 32

/-- The table of rule R51: the bits of X, Y, S and C that an operation drives. -/
def drives : Op → Response
  | .ADDC => { X := Bus.limbMask, Y := 0, S := 0, C := true }
  | .ADDF => { X := Bus.wideMask, Y := 0, S := 0, C := true }
  | .ADDHI => { X := Bus.wideMask, Y := 0, S := 0, C := true }
  | .NEG => { X := Bus.wideMask, Y := 0, S := 0, C := false }
  | .SUB => { X := Bus.wideMask, Y := 0, S := 0, C := false }
  | .MULF => { X := Bus.wideMask, Y := Bus.wideMask, S := 0, C := false }
  | .MULLO => { X := Bus.wideMask, Y := 0, S := 0, C := false }
  | .MULNH => { X := Bus.wideMask, Y := 0, S := scalarMask, C := false }
  | .SHBU => { X := Bus.wideMask, Y := 0, S := 0, C := false }
  | .SHBD => { X := Bus.wideMask, Y := 0, S := 0, C := false }
  | .SHLU => { X := Bus.wideMask, Y := 0, S := 0, C := false }
  | .SHLD => { X := Bus.wideMask, Y := 0, S := 0, C := false }
  | .SHU => { X := Bus.wideMask, Y := 0, S := 0, C := false }
  | .SHD => { X := Bus.wideMask, Y := 0, S := 0, C := false }
  | .LZL => { X := 0, Y := 0, S := scalarMask, C := false }
  | .HSB => { X := 0, Y := 0, S := scalarMask, C := false }
  | .CMP => { X := 0, Y := 0, S := scalarMask, C := false }
  | .DIVMOD => { X := Bus.wideMask, Y := Bus.wideMask, S := 0, C := true }
  | .TO16 => { X := Bus.wideMask, Y := 0, S := 0, C := false }
  | .FROM16 => { X := Bus.wideMask, Y := 0, S := 0, C := false }
  | .EQEXP => { X := Bus.extMask, Y := Bus.extMask, S := 0, C := false }
  | .NORM => { X := Bus.extMask, Y := 0, S := 0, C := false }

/-- A response drives only what the mask allows. -/
def Within (r m : Response) : Prop :=
  r.X &&& ~~~m.X = 0 ∧ r.Y &&& ~~~m.Y = 0 ∧ r.S &&& ~~~m.S = 0 ∧ (r.C = true → m.C = true)

end Sys2Proof.Machine
end

