-- ==== Sys2Proof/Machine/Decimal.lean ====
section
/-! DEFINITION. A decimal number and how its characters are read (spec/47_extfloat_client_ops.md rule R202). The rule does not
give the accepted syntax; the one here is the model's choice (log entry 13): an optional sign, digits with at most one point,
at least one digit, then optionally `e` or `E` with a signed whole number. -/

namespace Sys2Proof

/-- The number `coeff * 10^exp10`, negated if `negative`. -/
structure Decimal where
  negative : Bool
  coeff : Nat
  exp10 : Int
  deriving DecidableEq, Repr

namespace Decimal

/-- Numerator and denominator of the magnitude; the denominator is a power of ten. -/
def num (d : Decimal) : Nat := d.coeff * 10 ^ d.exp10.toNat
def den (d : Decimal) : Nat := 10 ^ (-d.exp10).toNat

/-- The value of a decimal digit. -/
def digitValue (c : Char) : Option Nat :=
  if '0'.toNat ≤ c.toNat ∧ c.toNat ≤ '9'.toNat then some (c.toNat - '0'.toNat) else none

/-- The digits at the head, appended to the number `acc`: the number, how many digits were read on top of `k`, and what
follows them. -/
def readDigits (acc k : Nat) : List Char → Nat × Nat × List Char
  | [] => (acc, k, [])
  | c :: cs =>
    match digitValue c with
    | some d => readDigits (10 * acc + d) (k + 1) cs
    | none => (acc, k, c :: cs)

/-- An optional sign, true for minus. -/
def readSign : List Char → Bool × List Char
  | [] => (false, [])
  | c :: cs => if c = '-' then (true, cs) else if c = '+' then (false, cs) else (false, c :: cs)

/-- An optional point with the digits after it, appended to the number `acc`. -/
def readFraction (acc : Nat) : List Char → Nat × Nat × List Char
  | [] => (acc, 0, [])
  | c :: cs => if c = '.' then readDigits acc 0 cs else (acc, 0, c :: cs)

/-- The whole rest: nothing, or a power of ten. -/
def readExponent : List Char → Option Int
  | [] => some 0
  | c :: cs =>
    let s := readSign cs
    let r := readDigits 0 0 s.2
    if (c = 'e' ∨ c = 'E') ∧ r.2.1 ≠ 0 ∧ r.2.2 = [] then some (if s.1 then -(r.1 : Int) else r.1) else none

/-- The decimal the characters write, if they write one. -/
def parse (cs : List Char) : Option Decimal :=
  let s := readSign cs
  let i := readDigits 0 0 s.2
  let f := readFraction i.1 i.2.2
  if i.2.1 + f.2.1 = 0 then none
  else (readExponent f.2.2).map fun e => ⟨s.1, f.1, e - f.2.1⟩

end Decimal
end Sys2Proof
end

