-- ==== Sys2Proof/Machine/Client.lean ====
section
/-! DEFINITION. The client operations of the Extended-Float Layer (spec/47_extfloat_client_ops.md). They are no operations
of the block and have no code (rule R180): each is a sequence of block responses with the client's own arithmetic between
them. `p` holds the open parameters of spec/00_scope.md rule R7. -/

namespace Sys2Proof
namespace Client

open Machine Config

/-- The block's responses the client asks for, on ExtFloat or mantissa operands (rule R49: a Limb128 operation reads the
mantissa of an ExtFloat field). -/
def askEqexp (p : Params) (a b : ExtFloat) : ExtFloat × ExtFloat :=
  let t := eqexpRsp p.eqexpFar a b
  (Bus.ext t.X, Bus.ext t.Y)

/-- `NORM`, the ExtFloat on `X`. -/
def askNorm (m : Limb128) (f e : Word32) : ExtFloat := Bus.ext (normRsp ⟨m, f, e⟩).X

/-- `negate`: the sign bit toggles (rule R182). -/
def negate (x : ExtFloat) : ExtFloat := ⟨x.mant, x.flags ^^^ Flag.sign, x.exp⟩

/-- `add` of equal signs (rule R183), on the operands and the aligned operands. -/
def addSame (a b a' b' : ExtFloat) : ExtFloat :=
  let u := addhiRsp a'.mant b'.mant
  let e := a'.exp + (if u.C then 32#32 else 0#32)
  askNorm (Bus.wide u.X) (a.flags ||| b.flags) e

/-- `add` of different signs (rules R184 to R186). The last branch is the one no comparison reaches: IMPOSSIBLE is set
and the value is free (93 U10). -/
def addDiffer (p : Params) (a b a' b' : ExtFloat) : ExtFloat :=
  let c := (cmpRsp a'.mant b'.mant).S
  if c = int32 1 then
    askNorm (Bus.wide (subRsp a'.mant b'.mant).X) (Flag.accumulate a b ||| Flag.ofSign (Flag.signOf a)) a'.exp
  else if c = int32 (-1) then
    askNorm (Bus.wide (subRsp b'.mant a'.mant).X) (Flag.accumulate a b ||| Flag.ofSign (Flag.signOf b)) a'.exp
  else if c = int32 0 then
    askNorm (Bus.wide (subRsp a'.mant b'.mant).X) (Flag.accumulate a b ||| Flag.ofSign (p.addEqualSign a b)) a'.exp
  else
    let v := Config.impossibleValue a b
    ⟨v.mant, Flag.accumulate a b ||| Flag.impossible ||| (v.flags &&& Flag.sign), v.exp⟩

/-- `add` (rules R183 to R186). -/
def add (p : Params) (a b : ExtFloat) : ExtFloat :=
  let t := askEqexp p a b
  if Flag.signOf a = Flag.signOf b then addSame a b t.1 t.2 else addDiffer p a b t.1 t.2

/-- `subtract(a, b) = add(a, negate(b))` (rule R187). -/
def subtract (p : Params) (a b : ExtFloat) : ExtFloat := add p a (negate b)

/-- The sign of a product or quotient: the XOR of the operand signs (rules R189, R193). -/
def xorSign (a b : ExtFloat) : Word32 := Flag.ofSign (xor (Flag.signOf a) (Flag.signOf b))

/-- `multiply` (rules R189, R190; 90_conflicts.md C1). -/
def multiply (p : Params) (a b : ExtFloat) : ExtFloat :=
  let r := mulnhRsp a.mant b.mant
  ⟨Bus.wide r.X, Flag.accumulate a b ||| xorSign a b, a.exp + b.exp - Config.bias + r.S + p.mulExpAdj⟩

/-- The value is not zero and its magnitude is below 2 to the power `f32ZeroBelow`: too small for the native format
(rule R194; 93 U12). -/
def tooSmallForF32 (p : Params) (x : ExtFloat) : Bool :=
  let e : Int := x.exp.toNat - 2 ^ 31
  decide (x.mant ≠ 0 ∧ x.mant.toNat < 2 ^ min 128 (128 + p.f32ZeroBelow - e).toNat)

/-- `ext_to_f32` (rule R199): the top 24 bits of a normalised mantissa, truncated; exactly 0.0, with the rule's sign bit, of
a value too small for the format (rule R194; 93 U12); free where the spec states no value (log entry 12). -/
def extToF32 (p : Params) (x : ExtFloat) : Word32 :=
  let e : Int := x.exp.toNat - 2 ^ 31 + 126
  if x.mant.getLsbD 127 ∧ 1 ≤ e ∧ e ≤ 254 then
    BitVec.ofBool (Flag.signOf x) ++ BitVec.ofNat 8 e.toNat ++ x.mant.extractLsb' 104 23
  else if tooSmallForF32 p x then BitVec.ofBool (Flag.signOf x) ++ 0#31
  else p.extToF32Open x

/-- A constructor delivers a normalised value (rule R198) and sets no error bit (60_exceptions.md rule R221): what is done
with a free value before a client sees it. -/
def construct (v : ExtFloat) : ExtFloat := askNorm v.mant (Flag.withoutErrors v.flags) v.exp

/-- `f32_to_ext` (rule R200) of a normal number; free otherwise. -/
def f32ToExt (p : Params) (f : Word32) : ExtFloat :=
  if F32.isNormal f then
    ⟨BitVec.ofNat 128 (2 ^ 127 + F32.fraction f * 2 ^ 104), Flag.ofSign (F32.signBit f),
     Config.bias + BitVec.ofNat 32 (F32.expBits f) - 126#32⟩
  else construct (p.f32ToExtOpen f)

/-- 2.0 (rule R195). -/
def two : ExtFloat := ⟨0x80000000000000000000000000000000#128, 0, 0x80000002#32⟩

/-- The sentinel of a zero divisor (rule R193). -/
def zeroDivisor (a b : ExtFloat) : ExtFloat :=
  ⟨BitVec.allOnes 128, Flag.accumulate a b ||| Flag.zeroDiv ||| xorSign a b, 0xFFFEFFFF#32⟩

/-- The reciprocal seed (rule R194): bit 3 is set in the seed's flags where the approximation is zero. No other error bit
is newly set there (60_exceptions.md rule R226), so the canonical seed carries none of its own. -/
def seed (p : Params) (b : ExtFloat) : ExtFloat :=
  let g := extToF32 p b
  if F32.isZero g then
    let r := p.divSeedCanon
    ⟨r.mant, Flag.withoutErrors r.flags ||| Flag.redPrec, r.exp⟩
  else f32ToExt p (p.f32Recip g)

/-- `r * (2 - b * r)` (rule R195). -/
def refineOnce (p : Params) (b r : ExtFloat) : ExtFloat := multiply p r (subtract p two (multiply p b r))

/-- `n` refinements. -/
def refine (p : Params) (b : ExtFloat) : Nat → ExtFloat → ExtFloat
  | 0, r => r
  | n + 1, r => refine p b n (refineOnce p b r)

/-- `divide`, total (rules R192 to R195): exactly 7 refinements. -/
def divide (p : Params) (a b : ExtFloat) : ExtFloat :=
  if isZero b.mant then zeroDivisor a b else multiply p a (refine p b 7 (seed p b))

/-- `compare`: the aligned mantissas, the signs ignored (rules R196, R250). -/
def compare (p : Params) (a b : ExtFloat) : Int :=
  let t := askEqexp p a b
  (cmpRsp t.1.mant t.2.mant).S.toInt

/-! The relational operators (rule R197). -/

def gt (p : Params) (a b : ExtFloat) : Bool := decide (compare p a b = 1)
def lt (p : Params) (a b : ExtFloat) : Bool := decide (compare p a b = -1)
def eq (p : Params) (a b : ExtFloat) : Bool := decide (compare p a b = 0)
def ge (p : Params) (a b : ExtFloat) : Bool := decide (0 ≤ compare p a b)
def le (p : Params) (a b : ExtFloat) : Bool := decide (compare p a b ≤ 0)

/-- `i32_to_ext`: named only, a parameter (rule R201); a constructor (rule R198). There is no `ext_to_i32`
(90_conflicts.md C4). -/
def i32ToExt (i : Word32) : ExtFloat := construct (Config.i32ToExt i)

/-- The true exponent of a positive rational: the `e` with `2^(e-1) <= num/den < 2^e` (rule R202). -/
def rationalExp (num den : Nat) : Int :=
  let e : Int := (Nat.log2 num : Int) - (Nat.log2 den : Int)
  if num * 2 ^ (-e).toNat < den * 2 ^ e.toNat then e else e + 1

/-- The fraction of `num/den` in [0.5, 1) quantised into 128 bits, with its true exponent (rule R202). The direction of an
inexact quantisation is free; a mantissa that rounds up to 2^128 is 2^127 one exponent higher (log entry 13). -/
def quantise (num den : Nat) : Nat × Int :=
  let e := rationalExp num den
  let n := num * 2 ^ (128 - e).toNat
  let d := den * 2 ^ (e - 128).toNat
  let m := if n % d = 0 then n / d else n / d + (Config.decimalRoundsUp num den).toNat
  if m = 2 ^ 128 then (2 ^ 127, e + 1) else (m, e)

/-- The ExtFloat of a decimal number (rule R202); the result for zero is free. -/
def decimalToExt (d : Decimal) : ExtFloat :=
  if d.coeff = 0 then construct (Config.decimalZero d.negative)
  else
    let q := quantise d.num d.den
    ⟨BitVec.ofNat 128 q.1, Flag.ofSign d.negative, Config.bias + BitVec.ofInt 32 q.2⟩

/-- `decimal_string_to_ext`, on the characters of the string (rule R202). What is no decimal as Decimal.lean reads one has
a free result: the accepted syntax is not given (log entry 13). -/
def decimalStringToExt (cs : List Char) : ExtFloat :=
  match Decimal.parse cs with
  | some d => decimalToExt d
  | none => construct (Config.decimalOther cs)

/-- The convenience wrapper of rule R204: the value, or its flags word where an error bit (1, 2, 3) is set
(log entry 20). -/
def failFast (v : ExtFloat) : Except Word32 ExtFloat :=
  if v.flags &&& Flag.errors = 0 then .ok v else .error v.flags

end Client
end Sys2Proof
end

