-- ==== Sys2Proof/Machine/Image.lean ====
section
/-! DEFINITION. The interchange images a client may hold in its own memory (spec/20_memory.md rules R31 to R34). The block
itself has no memory (rule R30). -/

namespace Sys2Proof
namespace Image

/-- The `n` bytes of a value, the least significant at the lowest offset (rule R32). -/
def bytes {w : Nat} (n : Nat) (v : BitVec w) : List Byte :=
  (List.range n).map fun j => v.extractLsb' (8 * j) 8

/-- The number a list of bytes holds, the least significant first. -/
def number : List Byte → Nat
  | [] => 0
  | b :: bs => b.toNat + 2 ^ 8 * number bs

/-- The six words of an ExtFloat in their order (rule R31). -/
def words (v : ExtFloat) : List Word32 :=
  [limb v.mant 0, limb v.mant 1, limb v.mant 2, limb v.mant 3, v.flags, v.exp]

/-- The 24 bytes of an ExtFloat: its six words, each little-endian (rules R31, R32). -/
def ofExt (v : ExtFloat) : List Byte := (words v).flatMap (bytes 4)

/-- The 16 bytes of a Limb128: 4 little-endian words (rule R33). -/
def ofLimb128 (a : Limb128) : List Byte :=
  [limb a 0, limb a 1, limb a 2, limb a 3].flatMap (bytes 4)

/-- The 16 bytes of a Limb128x16: 8 little-endian 16-bit units (rule R33). -/
def ofLimb128x16 (w : Limb128x16) : List Byte :=
  [digit w 0, digit w 1, digit w 2, digit w 3, digit w 4, digit w 5, digit w 6, digit w 7].flatMap (bytes 2)

/-- The field value of a 24-byte image, read as one little-endian number (rule R32); `none` for another length. -/
def toBus (bs : List Byte) : Option Bus :=
  if bs.length = 24 then some (BitVec.ofNat 192 (number bs)) else none

/-- The ExtFloat of a 24-byte image. -/
def toExt (bs : List Byte) : Option ExtFloat := (toBus bs).map Bus.ext

end Image
end Sys2Proof
end

