-- ==== Sys2Proof/Machine/Reference.lean ====
section
/-! DEFINITION. The reference algorithms of the spec, not observable in any response: the limb views of the bit shifts
(spec/42_shifter.md rules R106, R107), the digit lattice (spec/41_multiplier.md rule R92) and the long division
(spec/44_divider.md rule R143). The machine does not call them; statements compare them with what it calls. -/

namespace Sys2Proof
namespace Reference

/-! The limb views. -/

/-- Limb `i` of the limb view of `shift_bits_up` for 1..31 (rule R106); for 0 the view is the operand. -/
def bitsUpLimb (a : Limb128) (n i : Nat) : Limb :=
  if i = 0 then limb a 0 <<< n else (limb a i <<< n) ||| (limb a (i - 1) >>> (32 - n))

def shiftBitsUp (a : Limb128) (n : Nat) : Limb128 :=
  if n = 0 then a
  else ofLimbs (bitsUpLimb a n 0) (bitsUpLimb a n 1) (bitsUpLimb a n 2) (bitsUpLimb a n 3)

/-- Limb `i` of the limb view of `shift_bits_down` for 1..31 (rule R107). -/
def bitsDownLimb (a : Limb128) (n i : Nat) : Limb :=
  if i = 3 then limb a 3 >>> n else (limb a i >>> n) ||| (limb a (i + 1) <<< (32 - n))

def shiftBitsDown (a : Limb128) (n : Nat) : Limb128 :=
  if n = 0 then a
  else ofLimbs (bitsDownLimb a n 0) (bitsDownLimb a n 1) (bitsDownLimb a n 2) (bitsDownLimb a n 3)

/-! Digits as the reference software holds them: numbers in a list, least significant first, base `2^16`. -/

/-- The base `B` of rule R143. -/
def base : Nat := 2 ^ 16

/-- The value of a list of digits, least significant first. -/
def value : List Nat → Nat
  | [] => 0
  | d :: ds => d + base * value ds

/-- The `len` low digits of a number. -/
def toDigits : Nat → Nat → List Nat
  | 0, _ => []
  | len + 1, v => v % base :: toDigits len (v / base)

/-- The eight digits of a Limb128x16. -/
def digitsOf (w : Limb128x16) : List Nat :=
  [(digit w 0).toNat, (digit w 1).toNat, (digit w 2).toNat, (digit w 3).toNat,
   (digit w 4).toNat, (digit w 5).toNat, (digit w 6).toNat, (digit w 7).toNat]

/-! The lattice. -/

/-- One partial product with the running carry: `t = x.d[i] * y.d[j] + r.d[i+j] + carry` (rule R92). -/
def partialSum (x y r carry : Nat) : Nat := x * y + r + carry

/-- The inner loop over the digits of `y` and the window `r.d[i..i+7]`: the new digits and the last carry. -/
def row (x : Nat) : List Nat → List Nat → Nat → List Nat × Nat
  | y :: ys, r :: rs, carry =>
    let t := partialSum x y r carry
    let rest := row x ys rs (t / base)
    (t % base :: rest.1, rest.2)
  | _, _, carry => ([], carry)

/-- The outer loop over the digits of `x`: after row `i` the digit `r.d[i]` is final and `r.d[i+8]` is the carry. -/
def rows : List Nat → List Nat → List Nat → List Nat
  | [], _, window => window
  | x :: xs, ys, window =>
    let r := row x ys window 0
    match r.1 ++ [r.2] with
    | [] => []
    | d :: ds => d :: rows xs ys ds

/-- Every partial sum `t` one inner loop forms, in order. -/
def rowSums (x : Nat) : List Nat → List Nat → Nat → List Nat
  | y :: ys, r :: rs, carry =>
    let t := partialSum x y r carry
    t :: rowSums x ys rs (t / base)
  | _, _, _ => []

/-- Every partial sum the outer loop forms, row by row, over the same windows as `rows`. -/
def rowsSums : List Nat → List Nat → List Nat → List Nat
  | [], _, _ => []
  | x :: xs, ys, window =>
    let r := row x ys window 0
    rowSums x ys window 0 ++ rowsSums xs ys (r.1 ++ [r.2]).tail

/-- The 64 partial sums `t` of the lattice of `a` and `b`. -/
def latticeSums (a b : Limb128) : List Nat :=
  rowsSums (digitsOf (to16 a)) (digitsOf (to16 b)) [0, 0, 0, 0, 0, 0, 0, 0]

/-- The 16 result digits of the lattice. -/
def lattice (a b : Limb128) : List Nat :=
  rows (digitsOf (to16 a)) (digitsOf (to16 b)) [0, 0, 0, 0, 0, 0, 0, 0]

/-- `(hi, lo)` re-encoded from the digits: 8..15 to `hi`, 0..7 to `lo`. -/
def multiplyFull (a b : Limb128) : Limb128 × Limb128 :=
  let r := lattice a b
  (BitVec.ofNat 128 (value (r.drop 8)), BitVec.ofNat 128 (value (r.take 8)))

/-! The long division. -/

/-- The number of divisor digits: one more than the largest index of a non-zero digit. -/
def digitCount (v : Nat) : Nat → Nat
  | 0 => 0
  | k + 1 => if v / base ^ k % base ≠ 0 then k + 1 else digitCount v k

/-- The correction loop: the trial digit comes down while its product overshoots the window. -/
def correct (V W : Nat) : Nat → Nat
  | 0 => 0
  | q + 1 => if W < (q + 1) * V then correct V W q else q + 1

/-- One quotient digit at position `j`: the digit, and the dividend digits with the window replaced. -/
def divStep (n : Nat) (vn : List Nat) (j : Nat) (un : List Nat) : Nat × List Nat :=
  let top := un.getD (j + n) 0 * base + un.getD (j + n - 1) 0
  let trial := min (top / vn.getD (n - 1) 0) (base - 1)
  let W := value ((un.drop j).take (n + 1))
  let V := value vn
  let q := correct V W trial
  (q, un.take j ++ toDigits (n + 1) (W - q * V) ++ un.drop (j + n + 1))

/-- The loop over `j` from `count - 1` down to 0: the last dividend digits, and the quotient digits, digit 0 first. -/
def divLoop (n : Nat) (vn : List Nat) : Nat → List Nat → List Nat × List Nat
  | 0, un => (un, [])
  | j + 1, un =>
    let r := divStep n vn j un
    let rest := divLoop n vn j r.2
    (rest.1, rest.2 ++ [r.1])

/-- The normalising shift: 0..15, so that the top divisor digit is at least `2^15`. -/
def divShift (v n : Nat) : Nat := 15 - (highestBelow (v / base ^ (n - 1) % base) 16).getD 0

/-- Quotient and remainder of the listing of rule R143; `b` is not zero. -/
def longDivision (a b : Limb128) : Limb128 × Limb128 :=
  let n := digitCount b.toNat 8
  let s := divShift b.toNat n
  let vn := toDigits n (b.toNat * 2 ^ s)
  let un := toDigits 9 (a.toNat * 2 ^ s)
  let r := divLoop n vn (8 - n + 1) un
  (BitVec.ofNat 128 (value r.2), BitVec.ofNat 128 (value r.1 / 2 ^ s))

end Reference
end Sys2Proof
end

