-- ==== Sys2Proof/Machine/Script.lean ====
section
/-! DEFINITION. Transaction scripts (spec/30_encoding.md rule R58): one transaction a line, each argument a literal or
wiring from earlier responses. Selecting, slicing and `ext` compute nothing. -/

namespace Sys2Proof
namespace Script

open Machine

/-- An argument. `t` is the line of an earlier response, counted from 0. -/
inductive Arg where
  | lit (v : Bus)
  | X (t : Nat)
  | Y (t : Nat)
  | S (t : Nat)
  | C (t : Nat)
  /-- `e[hi:lo]` -/
  | slice (e : Arg) (hi lo : Nat)
  /-- `e.mant`, `e.flags`, `e.exp` -/
  | mant (e : Arg)
  | flags (e : Arg)
  | exp (e : Arg)
  /-- `ext(m, f, e)` -/
  | ext (m f e : Arg)
  deriving DecidableEq, Repr

/-- A line `t = MNEMONIC args`. -/
structure Line where
  op : Op
  args : List Arg
  deriving DecidableEq, Repr

/-- The value of an argument, on a 192-bit field; `none` where it names no earlier response. A slice is taken from a field
of zeros above the value. DESIGN CHOICE (log entry 15): rule R58 does not say what is placed where an argument is wider than
its place, and the low bits are: of `m` the low 128, of `f` and `e` the low 32; a slice with `hi` below `lo` is 0. -/
def Arg.value (rs : List Response) : Arg → Option Bus
  | .lit v => some v
  | .X t => rs[t]?.map (·.X)
  | .Y t => rs[t]?.map (·.Y)
  | .S t => rs[t]?.map fun r => r.S.setWidth 192
  | .C t => rs[t]?.map fun r => (BitVec.ofBool r.C).setWidth 192
  | .slice e hi lo => (e.value rs).map fun v => (v.extractLsb' lo (hi + 1 - lo)).setWidth 192
  | .mant e => (e.value rs).map fun v => Bus.ofWide (Bus.wide v)
  | .flags e => (e.value rs).map fun v => Bus.ofLimb (Bus.flags v)
  | .exp e => (e.value rs).map fun v => Bus.ofLimb (Bus.exp v)
  | .ext m f e =>
    match m.value rs, f.value rs, e.value rs with
    | some m, some f, some e => some (Bus.ofExt ⟨Bus.wide m, Bus.limb f, Bus.limb e⟩)
    | _, _, _ => none

/-- The request of a line: the arguments in the order A, B, N, only those the format reads. Bits above the operand in `A` and
`B` are passed on (rule R49; the `REQ` of P3's ADDHI in 95_test_vectors.md). DESIGN CHOICE (log entry 15):
of an `argN` wider than `N` the low 32 bits are placed. -/
def assemble (o : Op) (vs : List Bus) : Option Request :=
  match o.format, vs with
  | .WWC, [a, b, n] => some ⟨o.code, a, b, Bus.limb n⟩
  | .LL, [a, b] => some ⟨o.code, a, b, 0⟩
  | .L, [a] => some ⟨o.code, a, 0, 0⟩
  | .LN, [a, n] => some ⟨o.code, a, 0, Bus.limb n⟩
  | .W, [a] => some ⟨o.code, a, 0, 0⟩
  | .EE, [a, b] => some ⟨o.code, a, b, 0⟩
  | .E, [a] => some ⟨o.code, a, 0, 0⟩
  | _, _ => none

/-- The request a line presents, given the responses to the lines before it. -/
def Line.request (l : Line) (rs : List Response) : Option Request :=
  (l.args.mapM (Arg.value rs)).bind (assemble l.op)

/-- A script run from a state with nothing pending: each line waits for the responses it names, presents its request and
takes one step (20_memory.md rule R39 (b)). `none` where a line is not readable or its request is refused. -/
def run : List Line → State → Option State
  | [], s => some s
  | l :: ls, s =>
    match l.request s.responses with
    | none => none
    | some r =>
      match step (present r s) with
      | .next s' => run ls s'
      | .fault _ => none
      | .refused _ => none

end Script
end Sys2Proof
end

