-- ==== Sys2Proof/Machine/Value.lean ====
section
/-! DEFINITION. The number an ExtFloat stands for (spec/10_state.md rule R14). The block never computes it; statements about
values use it. -/

namespace Sys2Proof

/-- The true exponent, `exp(v) - 0x8000_0000` as a signed integer (rule R14). -/
def ExtFloat.trueExp (v : ExtFloat) : Int := (v.exp.toNat : Int) - 2 ^ 31

/-- The magnitude, `(val(mant(v)) / 2^128) * 2^e` (rule R14). -/
def ExtFloat.magnitude (v : ExtFloat) : ℚ := (v.mant.toNat : ℚ) / 2 ^ 128 * (2 : ℚ) ^ v.trueExp

/-- The value, the magnitude with the sign of flags bit 0 (rule R14). -/
def ExtFloat.value (v : ExtFloat) : ℚ := if Flag.signOf v then -v.magnitude else v.magnitude

/-- Normalised: the top mantissa bit is 1 (rule R14). -/
def ExtFloat.normalised (v : ExtFloat) : Bool := v.mant.getLsbD 127

end Sys2Proof
end

