-- ==== Sys2Proof/Safety.lean ====
section
/-! DEFINITION. What counts as a safe run, in the words claims use: every pending request is well-formed
(spec/30_encoding.md rule R54, spec/70_reset_and_hazards.md rule R246), and every response given is the response of some
well-formed request (spec/10_state.md rules R17, R25). -/

namespace Sys2Proof.Machine

/-- The request is well-formed (rule R54). -/
def WellFormedRequest (r : Request) : Prop := ∃ i, decode r = .ok i

/-- The client kept its duty: every pending request is well-formed. -/
def State.Safe (s : State) : Prop := ∀ r ∈ s.pending, WellFormedRequest r

/-- What every step keeps: every response given so far is the block's response to some well-formed operation, and is
zero wherever that operation drives nothing (rule R52). -/
def State.Inv (s : State) : Prop :=
  ∀ r ∈ s.responses, ∃ i : Instr, i.wellFormed = true ∧ r = answer i ∧ Within r (drives i.op)

/-- The number of transactions a state accounts for: those to come and those done (rule R252). -/
def State.transactions (s : State) : Nat := s.pending.length + s.responses.length

end Sys2Proof.Machine
end

