-- ==== Sys2Proof/Certificates/Slice0/Obligations.lean ====
section
/-! DEFINITION. The statements for the provers. `Gives r s` is the whole next state of a transaction with response `r`:
one response more, everything else (the pending requests, the earlier responses) unchanged; so every statement that
concludes it is a result, a frame and a completion statement at once. -/

namespace Sys2Proof.Statement

open Machine

/-- The next state in which the block has given the response `r` and nothing else has changed. -/
def Gives (r : Response) (s : State) : Answer :=
  .next { pending := s.pending, responses := s.responses ++ [r] }

/-- A request with code `c` and a legal count is taken from the head of the pending requests and run as `build` reads it. -/
def RunsAs (c : OpCode) (legal : Word32 → Prop) (build : Request → Instr) : Prop :=
  ∀ (s : State) (r : Request) (rest : List Request),
    s.pending = r :: rest → r.op = c → legal r.N → step s = exec (build r) { s with pending := rest }

/-- Any count is legal: the operation does not read `N`. -/
def AnyCount : Word32 → Prop := fun _ => True

/-- `A[127:0]` and `B[127:0]`. -/
def wideA (r : Request) : Limb128 := r.A.extractLsb' 0 128
def wideB (r : Request) : Limb128 := r.B.extractLsb' 0 128

/-- The ExtFloat on a field: mantissa `[127:0]`, flags `[159:128]`, exponent `[191:160]`. -/
def extOn (f : Bus) : ExtFloat := ⟨f.extractLsb' 0 128, f.extractLsb' 128 32, f.extractLsb' 160 32⟩

/-- A field that holds the number `v`. -/
def field (v : Nat) : Bus := BitVec.ofNat 192 v

/-- The field that carries an ExtFloat with the given mantissa, flags and exponent numbers. -/
def extField (m f e : Nat) : Bus := BitVec.ofNat 192 (m + f * 2 ^ 128 + e * 2 ^ 160)

/-- A count outside the range of the operation is refused by its meaning. -/
def RefusesCount (o : Op) (build : Word32 → Instr) (most : Nat) : Prop :=
  ∀ (n : Word32) (s : State), most < n.toNat →
    exec (build n) s = .refused (.illFormedRequest (.countOutOfRange o n))

end Sys2Proof.Statement

open Sys2Proof Sys2Proof.Machine Sys2Proof.Statement

/-! ## The adder and the negator (40_adder_negator.md) -/

/-- R71: the sum modulo 2^32 on X[31:0], the carry on C; a carry-in above 1 is refused, as the rule
says (R55; log entry 5 names the refusal). -/
def Obligations.AddcGivesSumAndCarry : Prop :=
  (∀ (a b : Limb) (n : Word32) (s : State), n.toNat ≤ 1 →
    exec (.addc a b n) s = Gives
      ⟨field ((a.toNat + b.toNat + n.toNat) % 2 ^ 32), 0, 0,
        decide ((a.toNat + b.toNat + n.toNat) / 2 ^ 32 = 1)⟩ s) ∧
  (∀ a b, RefusesCount .ADDC (fun n => .addc a b n) 1) ∧
  RunsAs 0x10#8 (fun n => n.toNat ≤ 1) fun r => .addc (r.A.extractLsb' 0 32) (r.B.extractLsb' 0 32) r.N

/-- R72: the ripple over four limbs is the 128-bit sum, C is bit 128 of the true sum. -/
def Obligations.AddfGivesSumAndCarry : Prop :=
  (∀ (a b : Limb128) (s : State),
    exec (.addf a b) s = Gives
      ⟨field ((a.toNat + b.toNat) % 2 ^ 128), 0, 0, decide ((a.toNat + b.toNat) / 2 ^ 128 = 1)⟩ s) ∧
  RunsAs 0x11#8 AnyCount fun r => .addf (wideA r) (wideB r)

/-- R73: with a carry the true sum divided by 2^32 and C = 1, otherwise the sum and C = 0. -/
def Obligations.AddhiKeepsHighPart : Prop :=
  (∀ (a b : Limb128) (s : State), 2 ^ 128 ≤ a.toNat + b.toNat →
    exec (.addhi a b) s = Gives ⟨field ((a.toNat + b.toNat) / 2 ^ 32), 0, 0, true⟩ s) ∧
  (∀ (a b : Limb128) (s : State), a.toNat + b.toNat < 2 ^ 128 →
    exec (.addhi a b) s = Gives ⟨field (a.toNat + b.toNat), 0, 0, false⟩ s) ∧
  RunsAs 0x12#8 AnyCount fun r => .addhi (wideA r) (wideB r)

/-- R74: two's-complement negation, C = 0. -/
def Obligations.NegGivesTwosComplement : Prop :=
  (∀ (a : Limb128) (s : State),
    exec (.neg a) s = Gives ⟨field ((2 ^ 128 - a.toNat) % 2 ^ 128), 0, 0, false⟩ s) ∧
  RunsAs 0x13#8 AnyCount fun r => .neg (wideA r)

/-- R75: unsigned wrap-around subtraction, C = 0. -/
def Obligations.SubWrapsAround : Prop :=
  (∀ (a b : Limb128) (s : State),
    exec (.sub a b) s = Gives ⟨field ((a.toNat + 2 ^ 128 - b.toNat) % 2 ^ 128), 0, 0, false⟩ s) ∧
  RunsAs 0x14#8 AnyCount fun r => .sub (wideA r) (wideB r)

/-- R77 (a) to (f), the laws of the family on whole responses, every value unsigned: the exact sum, ADDF and ADDHI commute,
SUB is ADDF of the negation, each of ADDF and SUB undoes the other, and ADDHI truncates the true sum. -/
def Obligations.AdderFamilyLaws : Prop :=
  ∀ a b : Limb128,
    (answer (.addf a b)).X.toNat + 2 ^ 128 * (answer (.addf a b)).C.toNat = a.toNat + b.toNat ∧
    answer (.addf a b) = answer (.addf b a) ∧
    answer (.addhi a b) = answer (.addhi b a) ∧
    (answer (.sub a b)).X = (answer (.addf a (Bus.wide (answer (.neg b)).X))).X ∧
    Bus.wide (answer (.addf (Bus.wide (answer (.sub a b)).X) b)).X = a ∧
    Bus.wide (answer (.sub (Bus.wide (answer (.addf a b)).X) b)).X = a ∧
    ((answer (.addhi a b)).C = true →
      (answer (.addhi a b)).X.toNat * 2 ^ 32 + (limb (Bus.wide (answer (.addf a b)).X) 0).toNat
        = a.toNat + b.toNat ∧
      (answer (.addhi a b)).X.toNat * 2 ^ 32 ≤ a.toNat + b.toNat ∧
      a.toNat + b.toNat < ((answer (.addhi a b)).X.toNat + 1) * 2 ^ 32)

/-! ## The multiplier (41_multiplier.md) -/

/-- R91: the exact 256-bit product, high half on X, low half on Y. -/
def Obligations.MulfGivesFullProduct : Prop :=
  (∀ (a b : Limb128) (s : State), ∃ hi lo : Nat,
    exec (.mulf a b) s = Gives ⟨field hi, field lo, 0, false⟩ s ∧
    hi < 2 ^ 128 ∧ lo < 2 ^ 128 ∧ hi * 2 ^ 128 + lo = a.toNat * b.toNat) ∧
  RunsAs 0x20#8 AnyCount fun r => .mulf (wideA r) (wideB r)

/-- R93: the low half of the product. -/
def Obligations.MulloGivesLowHalf : Prop :=
  (∀ (a b : Limb128) (s : State),
    exec (.mullo a b) s = Gives ⟨field (a.toNat * b.toNat % 2 ^ 128), 0, 0, false⟩ s) ∧
  RunsAs 0x21#8 AnyCount fun r => .mullo (wideA r) (wideB r)

/-- R94: the product shifted left until bit 255 is 1, its top half on X and `128 - shift` modulo 2^32 on S (the modulus is
the rule's decision D9, log entry 7); zero gives X = 0, S = 0. -/
def Obligations.MulnhNormalisesProduct : Prop :=
  (∀ (a b : Limb128) (s : State), a.toNat * b.toNat = 0 →
    exec (.mulnh a b) s = Gives ⟨0, 0, 0, false⟩ s) ∧
  (∀ (a b : Limb128) (s : State), a.toNat * b.toNat ≠ 0 → ∃ sh : Nat,
    sh ≤ 255 ∧ 2 ^ 255 ≤ a.toNat * b.toNat * 2 ^ sh ∧ a.toNat * b.toNat * 2 ^ sh < 2 ^ 256 ∧
    exec (.mulnh a b) s = Gives
      ⟨field (a.toNat * b.toNat * 2 ^ sh / 2 ^ 128), 0, BitVec.ofNat 32 (2 ^ 32 + 128 - sh), false⟩ s) ∧
  RunsAs 0x22#8 AnyCount fun r => .mulnh (wideA r) (wideB r)

/-- R92: the digit lattice gives the halves of the true product; each of its 64 partial sums fits 32 bits, so every carry
and digit it passes on fits 16; every result digit fits 16 bits. -/
def Obligations.LatticeComputesProduct : Prop :=
  (∀ a b : Limb128,
    Reference.multiplyFull a b =
      (BitVec.ofNat 128 (a.toNat * b.toNat / 2 ^ 128), BitVec.ofNat 128 (a.toNat * b.toNat % 2 ^ 128)) ∧
    (Reference.lattice a b).length = 16 ∧ (∀ d ∈ Reference.lattice a b, d < 2 ^ 16) ∧
    (Reference.latticeSums a b).length = 64 ∧
    ∀ t ∈ Reference.latticeSums a b, t < 2 ^ 32 ∧ t / 2 ^ 16 < 2 ^ 16 ∧ t % 2 ^ 16 < 2 ^ 16) ∧
  ∀ x y r carry : Nat, x < 2 ^ 16 → y < 2 ^ 16 → r < 2 ^ 16 → carry < 2 ^ 16 →
    Reference.partialSum x y r carry < 2 ^ 32 ∧ Reference.partialSum x y r carry / 2 ^ 16 < 2 ^ 16

/-! ## The shifter (42_shifter.md) -/

/-- R106, R107: the shifts by bits, 0..31; a larger count is refused (R105, R55; log entry 5). -/
def Obligations.BitShiftsGiveProductAndQuotient : Prop :=
  (∀ (a : Limb128) (n : Word32) (s : State), n.toNat ≤ 31 →
    exec (.shbu a n) s = Gives ⟨field (a.toNat * 2 ^ n.toNat % 2 ^ 128), 0, 0, false⟩ s ∧
    exec (.shbd a n) s = Gives ⟨field (a.toNat / 2 ^ n.toNat), 0, 0, false⟩ s) ∧
  (∀ a, RefusesCount .SHBU (fun n => .shbu a n) 31 ∧ RefusesCount .SHBD (fun n => .shbd a n) 31) ∧
  RunsAs 0x30#8 (fun n => n.toNat ≤ 31) (fun r => .shbu (wideA r) r.N) ∧
  RunsAs 0x31#8 (fun n => n.toNat ≤ 31) fun r => .shbd (wideA r) r.N

/-- R106, R107: the limb views of the two bit shifts are the shifts. -/
def Obligations.LimbViewsAreBitShifts : Prop :=
  ∀ (a : Limb128) (n : Nat), n ≤ 31 →
    Reference.shiftBitsUp a n = shiftBitsUp a n ∧ Reference.shiftBitsDown a n = shiftBitsDown a n

/-- R108, R109: the shifts by whole limbs, 0..4, as the number and limb by limb; a larger count is refused (R105,
R55; log entry 5). -/
def Obligations.LimbShiftsMoveLimbs : Prop :=
  (∀ (a : Limb128) (n : Word32) (s : State), n.toNat ≤ 4 →
    exec (.shlu a n) s = Gives ⟨field (a.toNat * 2 ^ (32 * n.toNat) % 2 ^ 128), 0, 0, false⟩ s ∧
    exec (.shld a n) s = Gives ⟨field (a.toNat / 2 ^ (32 * n.toNat)), 0, 0, false⟩ s ∧
    ∀ i < 4,
      limb (Bus.wide (answer (.shlu a n)).X) i = (if n.toNat ≤ i then limb a (i - n.toNat) else 0) ∧
      limb (Bus.wide (answer (.shld a n)).X) i = (if i + n.toNat ≤ 3 then limb a (i + n.toNat) else 0)) ∧
  (∀ a, RefusesCount .SHLU (fun n => .shlu a n) 4 ∧ RefusesCount .SHLD (fun n => .shld a n) 4) ∧
  RunsAs 0x32#8 (fun n => n.toNat ≤ 4) (fun r => .shlu (wideA r) r.N) ∧
  RunsAs 0x33#8 (fun n => n.toNat ≤ 4) fun r => .shld (wideA r) r.N

/-- R110, R111: the number the composed shifts give, 0..128; a larger count is refused (R105, R55; log entry 5). -/
def Obligations.WideShiftsGiveProductAndQuotient : Prop :=
  (∀ (a : Limb128) (n : Word32) (s : State), n.toNat ≤ 128 →
    exec (.shu a n) s = Gives ⟨field (a.toNat * 2 ^ n.toNat % 2 ^ 128), 0, 0, false⟩ s ∧
    exec (.shd a n) s = Gives ⟨field (a.toNat / 2 ^ n.toNat), 0, 0, false⟩ s) ∧
  (∀ a, RefusesCount .SHU (fun n => .shu a n) 128 ∧ RefusesCount .SHD (fun n => .shd a n) 128) ∧
  RunsAs 0x34#8 (fun n => n.toNat ≤ 128) (fun r => .shu (wideA r) r.N) ∧
  RunsAs 0x35#8 (fun n => n.toNat ≤ 128) fun r => .shd (wideA r) r.N

/-- R112 (b), (c): shifting there and back, and shifting twice. -/
def Obligations.ShiftsCompose : Prop :=
  ∀ (a : Limb128) (m n : Nat), m ≤ 128 → n ≤ 128 →
    (shiftDown (shiftUp a n) n).toNat = a.toNat % 2 ^ (128 - n) ∧
    (shiftUp (shiftDown a n) n).toNat = a.toNat - a.toNat % 2 ^ n ∧
    (m + n ≤ 128 → shiftUp (shiftUp a m) n = shiftUp a (m + n) ∧
      shiftDown (shiftDown a m) n = shiftDown a (m + n))

/-! ## The counters and the comparator (43_lzc_comparator.md) -/

/-- R126: the number of zero limbs above the first non-zero one. -/
def Obligations.LzlCountsLeadingZeroLimbs : Prop :=
  (∀ (a : Limb128) (s : State), ∃ z : Nat,
    exec (.lzl a) s = Gives ⟨0, 0, BitVec.ofNat 32 z, false⟩ s ∧
    z ≤ 4 ∧ (∀ i < z, limb a (3 - i) = 0) ∧ (z < 4 → limb a (3 - z) ≠ 0)) ∧
  RunsAs 0x40#8 AnyCount fun r => .lzl (wideA r)

/-- R130 (a): the count is 4 exactly for zero, and bounds the value from both sides. -/
def Obligations.LeadingZeroLimbsBoundValue : Prop :=
  ∀ a : Limb128,
    (leadingZeroLimbs a = 4 ↔ a.toNat = 0) ∧ a.toNat < 2 ^ (32 * (4 - leadingZeroLimbs a)) ∧
    (leadingZeroLimbs a < 4 → 2 ^ (32 * (3 - leadingZeroLimbs a)) ≤ a.toNat)

/-- R127: the index of the highest set bit, -1 for zero (the sentinel -1 is the rule's own inference from the range). -/
def Obligations.HsbGivesBitIndex : Prop :=
  (∀ s : State, exec (.hsb 0) s = Gives ⟨0, 0, 0xFFFFFFFF#32, false⟩ s) ∧
  (∀ (x : Limb) (s : State), x ≠ 0 → ∃ k : Nat,
    k ≤ 31 ∧ 2 ^ k ≤ x.toNat ∧ x.toNat < 2 ^ (k + 1) ∧
    exec (.hsb x) s = Gives ⟨0, 0, BitVec.ofNat 32 k, false⟩ s) ∧
  RunsAs 0x41#8 AnyCount fun r => .hsb (r.A.extractLsb' 0 32)

/-- R128, R130 (c): the order of the values as unsigned integers: 1, -1 or 0 on S. -/
def Obligations.CmpOrdersValues : Prop :=
  (∀ (a b : Limb128) (s : State),
    exec (.cmp a b) s = Gives
      ⟨0, 0, if b.toNat < a.toNat then 1#32 else if a.toNat < b.toNat then 0xFFFFFFFF#32 else 0#32, false⟩ s) ∧
  RunsAs 0x42#8 AnyCount fun r => .cmp (wideA r) (wideB r)

/-- R129, R130 (d): the bit count of a non-zero value is the one shift amount that brings its top bit to bit 127. -/
def Obligations.LeadingZeroBitsNormalise : Prop :=
  ∀ a : Limb128, a ≠ 0 →
    leadingZeroBits a ≤ 127 ∧
    ∀ k ≤ 127, (2 ^ 127 ≤ a.toNat * 2 ^ k ∧ a.toNat * 2 ^ k < 2 ^ 128) ↔ k = leadingZeroBits a

/-! ## The divider (44_divider.md) -/

/-- R141, R142: floor quotient and remainder, or the all-ones sentinels with C = 1. -/
def Obligations.DivmodGivesQuotientAndRemainder : Prop :=
  (∀ (a b : Limb128) (s : State), b.toNat ≠ 0 →
    exec (.divmod a b) s = Gives ⟨field (a.toNat / b.toNat), field (a.toNat % b.toNat), 0, false⟩ s) ∧
  (∀ (a : Limb128) (s : State),
    exec (.divmod a 0) s = Gives ⟨field (2 ^ 128 - 1), field (2 ^ 128 - 1), 0, true⟩ s) ∧
  RunsAs 0x50#8 AnyCount fun r => .divmod (wideA r) (wideB r)

/-- R144: TF192's property: the product of quotient and divisor, plus the remainder, is the dividend with no carry, and
the remainder compares below the divisor. -/
def Obligations.DivmodRecomposesDividend : Prop :=
  ∀ a b : Limb128, b ≠ 0 →
    let d := answer (.divmod a b)
    let q := Bus.wide d.X
    let r := Bus.wide d.Y
    answer (.addf (Bus.wide (answer (.mullo q b)).X) r) = ⟨Bus.ofWide a, 0, 0, false⟩ ∧
    (answer (.cmp r b)).S = 0xFFFFFFFF#32 ∧ q.toNat * b.toNat + r.toNat = a.toNat

/-- R143: the long division on 16-bit digits gives quotient and remainder. -/
def Obligations.LongDivisionComputesDivmod : Prop :=
  ∀ a b : Limb128, b ≠ 0 →
    Reference.longDivision a b = (BitVec.ofNat 128 (a.toNat / b.toNat), BitVec.ofNat 128 (a.toNat % b.toNat))

/-! ## The re-encoder (45_reencoder.md) -/

/-- R151, R152: each limb's halves are its two digits, and back. -/
def Obligations.ReencoderSplitsAndJoins : Prop :=
  (∀ (a : Limb128) (s : State), ∃ w : Limb128x16,
    exec (.to16 a) s = Gives ⟨Bus.ofWide w, 0, 0, false⟩ s ∧
    ∀ i < 4, (digit w (2 * i)).toNat = (limb a i).toNat % 2 ^ 16 ∧
      (digit w (2 * i + 1)).toNat = (limb a i).toNat / 2 ^ 16) ∧
  (∀ (w : Limb128x16) (s : State), ∃ a : Limb128,
    exec (.from16 w) s = Gives ⟨Bus.ofWide a, 0, 0, false⟩ s ∧
    ∀ i < 4, (limb a i).toNat = (digit w (2 * i)).toNat + (digit w (2 * i + 1)).toNat * 2 ^ 16) ∧
  RunsAs 0x60#8 AnyCount (fun r => .to16 (wideA r)) ∧
  RunsAs 0x61#8 AnyCount fun r => .from16 (wideA r)

/-- R153 (a), (b): both are the identity on the bits of the field, so each undoes the other. -/
def Obligations.ReencodingIsIdentityOnBits : Prop :=
  ∀ a : Limb128,
    (answer (.to16 a)).X = Bus.ofWide a ∧ (answer (.from16 a)).X = Bus.ofWide a ∧
    from16 (to16 a) = a ∧ to16 (from16 a) = a

/-! ## The aligner and the normaliser (46_aligner_normaliser.md) -/

/-- R161, R162, R163: both outputs carry the larger exponent (after the zero special case), each mantissa divided by two to
the distance, each operand's own flags. Beyond a distance of 128 the quotient is zero, the value rule R163 decides
(D10, log entry 6). -/
def Obligations.EqexpAlignsToLargerExponent : Prop :=
  (∀ (v1 v2 : ExtFloat) (s : State), ∃ e1 e2 : Nat,
    (v1.mant = 0 → v2.mant = 0 → e1 = 0x80000000 ∧ e2 = 0x80000000) ∧
    (v1.mant = 0 → v2.mant ≠ 0 → e1 = v2.exp.toNat ∧ e2 = v2.exp.toNat) ∧
    (v1.mant ≠ 0 → v2.mant = 0 → e1 = v1.exp.toNat ∧ e2 = v1.exp.toNat) ∧
    (v1.mant ≠ 0 → v2.mant ≠ 0 → e1 = v1.exp.toNat ∧ e2 = v2.exp.toNat) ∧
    exec (.eqexp v1 v2) s = Gives
      ⟨extField (v1.mant.toNat / 2 ^ (max e1 e2 - e1)) v1.flags.toNat (max e1 e2),
       extField (v2.mant.toNat / 2 ^ (max e1 e2 - e2)) v2.flags.toNat (max e1 e2), 0, false⟩ s) ∧
  RunsAs 0x70#8 AnyCount fun r => .eqexp (extOn r.A) (extOn r.B)

/-- R162, R164 (a), (d), for EVERY value of the parameter EQEXP_FAR: equal exponents out, flags kept, an operand with the
larger exponent untouched, and up to a distance of 128 nothing depends on the parameter. -/
def Obligations.EqexpHoldsForEveryFarValue : Prop :=
  ∀ (far : Limb128 → Nat → Limb128) (v1 v2 : ExtFloat),
    let r := equalizeExp far v1 v2
    r.1.exp = r.2.exp ∧ r.1.flags = v1.flags ∧ r.2.flags = v2.flags ∧
    (v1.mant ≠ 0 → v2.mant ≠ 0 → v2.exp.toNat ≤ v1.exp.toNat → r.1 = v1) ∧
    (v1.mant ≠ 0 → v2.mant ≠ 0 → v1.exp.toNat ≤ v2.exp.toNat → r.2 = v2) ∧
    (v1.exp.toNat ≤ v2.exp.toNat + 128 → v2.exp.toNat ≤ v1.exp.toNat + 128 → r = equalizeExp eqexpFarZero v1 v2)

/-- R164 (c): exchanging the operands exchanges the results. -/
def Obligations.EqexpSwapsWithOperands : Prop :=
  ∀ v1 v2 : ExtFloat,
    (answer (.eqexp v2 v1)).X = (answer (.eqexp v1 v2)).Y ∧ (answer (.eqexp v2 v1)).Y = (answer (.eqexp v1 v2)).X

/-- R166, R167, R168: a zero mantissa changes nothing; otherwise the mantissa is shifted up by the one amount that sets bit
127, the exponent drops by it modulo 2^32 (decision D11, log entry 7), the flags stay. -/
def Obligations.NormShiftsToTopBit : Prop :=
  (∀ (x : ExtFloat) (s : State), x.mant = 0 →
    exec (.norm x) s = Gives ⟨extField 0 x.flags.toNat x.exp.toNat, 0, 0, false⟩ s) ∧
  (∀ (x : ExtFloat) (s : State), x.mant ≠ 0 → ∃ k : Nat,
    k ≤ 127 ∧ 2 ^ 127 ≤ x.mant.toNat * 2 ^ k ∧ x.mant.toNat * 2 ^ k < 2 ^ 128 ∧
    exec (.norm x) s = Gives
      ⟨extField (x.mant.toNat * 2 ^ k) x.flags.toNat ((x.exp.toNat + 2 ^ 32 - k) % 2 ^ 32), 0, 0, false⟩ s) ∧
  RunsAs 0x71#8 AnyCount fun r => .norm (extOn r.A)

/-- R169: normalising twice is normalising once, and after it exactly one of zero mantissa and top bit set holds. -/
def Obligations.NormIsIdempotent : Prop :=
  ∀ x : ExtFloat,
    let y := extOn (answer (.norm x)).X
    answer (.norm y) = answer (.norm x) ∧ Xor (y.mant = 0) (y.mant.getLsbD 127 = true)

/-- R169 (a) with the value of R14: without exponent wrap NORM keeps the value. -/
def Obligations.NormKeepsValue : Prop :=
  ∀ x : ExtFloat, leadingZeroBits x.mant ≤ x.exp.toNat → (normalizeExt x).value = x.value

/-! ## Requests, responses, decoding (30_encoding.md) -/

/-- R46, R48, R49: where each field stands in the flat words, and that the words carry the whole records. -/
def Obligations.FlatWordsCarryTheRecords : Prop :=
  (∀ r : Request, r.toWord.extractLsb' 0 8 = r.op ∧ r.toWord.extractLsb' 8 192 = r.A ∧
    r.toWord.extractLsb' 200 192 = r.B ∧ r.toWord.extractLsb' 392 32 = r.N ∧ Request.ofWord r.toWord = r) ∧
  (∀ w, (Request.ofWord w).toWord = w) ∧
  (∀ r : Response, r.toWord.extractLsb' 0 192 = r.X ∧ r.toWord.extractLsb' 192 192 = r.Y ∧
    r.toWord.extractLsb' 384 32 = r.S ∧ r.toWord.getLsbD 416 = r.C ∧ Response.ofWord r.toWord = r) ∧
  (∀ w, (Response.ofWord w).toWord = w) ∧
  (∀ v : ExtFloat, extOn (Bus.ofExt v) = v ∧ (Bus.ofExt v).toNat =
    (limb v.mant 0).toNat + (limb v.mant 1).toNat * 2 ^ 32 + (limb v.mant 2).toNat * 2 ^ 64 +
    (limb v.mant 3).toNat * 2 ^ 96 + v.flags.toNat * 2 ^ 128 + v.exp.toNat * 2 ^ 160)

/-- Decoding the request of a well-formed instruction gives it back, from the record and from the flat word. -/
def Obligations.DecodeEncodeAgree : Prop :=
  ∀ i : Instr, i.wellFormed = true → decode (encode i) = .ok i ∧ decodeWord (encodeWord i) = .ok i

/-- The flat words written out in 95_test_vectors.md section 2.13 decode to the operations named there. -/
def Obligations.SpecWordsDecode : Prop :=
  decodeWord 0x000000010000000000000000000000000000000000000000000000000000000000000000000000000000000000000000FFFFFFFF10#424
    = .ok (.addc 0xFFFFFFFF#32 0#32 1#32) ∧
  decodeWord 0x000000000000000000000000FFFFFFFFFFFFFFFFFFFFFFFFFFFFFFFF0000000000000000FFFFFFFFFFFFFFFFFFFFFFFFFFFFFFFF22#424
    = .ok (.mulnh (BitVec.allOnes 128) (BitVec.allOnes 128)) ∧
  decodeWord 0x0000000000000000000000000000000000000000000000000000000100000000000000000000000000000000000000000000000042#424
    = .ok (.cmp 0#128 1#128) ∧
  decodeWord 0x0000000000000000000000000000000000000000000000000000000080000080000000000000000000000000000000000000000171#424
    = .ok (.norm ⟨1#128, 0#32, 0x80000080#32⟩) ∧
  decodeWord 0x000000210000000000000000000000000000000000000000000000000000000000000000123456789ABCDEF00FEDCBA98765432135#424
    = .ok (.shd 0x123456789ABCDEF00FEDCBA987654321#128 33#32)

/-- R54, R55, R56: a request is refused exactly when its code is none of the 22 or its count is outside the range. -/
def Obligations.DecodeRefusesExactlyIllFormed : Prop :=
  ∀ r : Request,
    (∃ i, decode r = .ok i) ↔
      (r.op.toNat = 0x10 ∧ r.N.toNat ≤ 1) ∨ ((r.op.toNat = 0x30 ∨ r.op.toNat = 0x31) ∧ r.N.toNat ≤ 31) ∨
      ((r.op.toNat = 0x32 ∨ r.op.toNat = 0x33) ∧ r.N.toNat ≤ 4) ∨
      ((r.op.toNat = 0x34 ∨ r.op.toNat = 0x35) ∧ r.N.toNat ≤ 128) ∨
      (0x11 ≤ r.op.toNat ∧ r.op.toNat ≤ 0x14) ∨ (0x20 ≤ r.op.toNat ∧ r.op.toNat ≤ 0x22) ∨
      (0x40 ≤ r.op.toNat ∧ r.op.toNat ≤ 0x42) ∨ r.op.toNat = 0x50 ∨ r.op.toNat = 0x60 ∨ r.op.toNat = 0x61 ∨
      r.op.toNat = 0x70 ∨ r.op.toNat = 0x71

/-- R50: clearing every bit an operation ignores changes nothing: two requests that differ only there have one step. -/
def Obligations.IgnoredBitsDoNotMatter : Prop :=
  ∀ (r q : Request) (s : State), r.onlyRead = q.onlyRead →
    (∀ i, decode r = .ok i ↔ decode q = .ok i) ∧
    (WellFormedRequest r → step (presentFirst r s) = step (presentFirst q s))

/-- R51, R52: an operation that gives a response gives one more, and drives nothing but what its row of the table says. -/
def Obligations.UndrivenBitsAreZero : Prop :=
  ∀ (i : Instr) (s t : State), exec i s = .next t →
    ∃ r, t.responses = s.responses ++ [r] ∧ t.pending = s.pending ∧ Within r (drives i.op)

/-! ## The machine -/

/-- R54: every well-formed instruction, of any of the 22 operations, is answered in every state, with a response that is a
function of the instruction alone. -/
def Obligations.EveryWellFormedInstrIsAnswered : Prop :=
  ∀ (i : Instr) (s : State), i.wellFormed = true → exec i s = Gives (answer i) s

/-- A step runs the decoded instruction: it takes the request at the head and is `exec` of what the decoder reads. With
nothing pending it changes nothing (log entry 2); a request the decoder refuses is refused. -/
def Obligations.StepRunsDecodedInstr : Prop :=
  (∀ (s : State) (r : Request) (rest : List Request) (i : Instr), s.pending = r :: rest → decode r = .ok i →
    step s = exec i { s with pending := rest }) ∧
  (∀ (s : State) (r : Request) (rest : List Request) (why : IllFormed), s.pending = r :: rest → decode r = .error why →
    step s = .refused (.illFormedRequest why)) ∧
  ∀ s : State, s.pending = [] → step s = .next s

/-- R224, R252: no step faults, and a step is refused exactly when the request it takes is not well-formed. -/
def Obligations.StepStopsOnlyOnIllFormed : Prop :=
  ∀ s : State,
    (∀ f, step s ≠ .fault f) ∧
    ((∃ t, step s = .next t) ↔ ∀ r rest, s.pending = r :: rest → WellFormedRequest r)

/-- R26, R240: the block is idle after reset, and the response to the first request depends on that request alone. (Both
lists empty: the model's choice, log entry 4.) -/
def Obligations.ResetIsIdle : Prop :=
  State.reset.pending = [] ∧ State.reset.responses = [] ∧ step State.reset = .next State.reset ∧
  ∀ (r : Request) (i : Instr), decode r = .ok i →
    step (present r State.reset) = .next { pending := [], responses := [answer i] }

/-- The invariant and the client's duty hold at reset. -/
def Obligations.ResetMeetsInvariant : Prop :=
  State.reset.Inv ∧ State.reset.Safe ∧ State.reset.transactions = 0

/-- Every step keeps the invariant, from every state that meets it: no response is invented, none drives a bit its
operation does not drive. -/
def Obligations.StepKeepsInvariant : Prop :=
  ∀ s t : State, s.Inv → step s = .next t → t.Inv

/-- R252: from a state whose pending requests are well-formed, a step completes, keeps them so, and takes one if there is
one. -/
def Obligations.SafeStatesMakeProgress : Prop :=
  ∀ s : State, s.Safe → ∃ t, step s = .next t ∧ t.Safe ∧ t.pending = s.pending.tail

/-- R252: no request is dropped, duplicated or answered twice. What a step takes away from the pending requests is the
oldest one, if there is one, and nothing else; what it adds to the responses is the one response to each request taken, and
nothing else. (Two lists, and the oldest first: the model's choice, log entry 1.) -/
def Obligations.StepConservesTransactions : Prop :=
  ∀ s t : State, step s = .next t →
    t.transactions = s.transactions ∧
    ∃ l : List Request, l.length = min 1 s.pending.length ∧ s.pending = l ++ t.pending ∧
      t.responses = s.responses ++ l.filterMap answerRequest ∧ (l.filterMap answerRequest).length = l.length

/-- R252, R39: every pending request is answered exactly once, with the response it would have alone. That the oldest is
taken first and its response put behind the earlier ones is no rule of the spec: the order of the two lists is the model's
choice, log entry 1. -/
def Obligations.RunAnswersEveryRequestInOrder : Prop :=
  ∀ s : State, s.Safe →
    Host.Core.run core s.pending.length s =
      .next { pending := [], responses := s.responses ++ s.pending.filterMap answerRequest } ∧
    (s.pending.filterMap answerRequest).length = s.pending.length

/-- R25, R39: the outcome of a transaction does not depend on the responses given before or on the requests behind. -/
def Obligations.HistoryDoesNotMatter : Prop :=
  ∀ (r : Request) (s1 s2 : State),
    (∃ q, step (presentFirst r s1) = Gives q s1 ∧ step (presentFirst r s2) = Gives q s2) ∨
    ∃ why, step (presentFirst r s1) = .refused why ∧ step (presentFirst r s2) = .refused why

/-- R39 (a), R233: requests issued in another order get the same responses; and shared out to two blocks of their own, each
run from its own empty state, they get the responses one block gives (log entry 16). -/
def Obligations.OrderOfTransactionsDoesNotMatter : Prop :=
  ∀ l l' : List Request, l.Perm l' → (∀ r ∈ l, WellFormedRequest r) →
    ∃ rs rs' : List Response,
      Host.Core.run core l.length { pending := l, responses := [] } = .next { pending := [], responses := rs } ∧
      Host.Core.run core l'.length { pending := l', responses := [] } = .next { pending := [], responses := rs' } ∧
      (l.zip rs).Perm (l'.zip rs') ∧
      ∀ l1 l2 : List Request, l = l1 ++ l2 → ∃ rs1 rs2 : List Response,
        Host.Core.run core l1.length { pending := l1, responses := [] } = .next { pending := [], responses := rs1 } ∧
        Host.Core.run core l2.length { pending := l2, responses := [] } = .next { pending := [], responses := rs2 } ∧
        rs = rs1 ++ rs2

/-- R58: a script that runs adds one response a line, and leaves the earlier responses and nothing pending. -/
def Obligations.ScriptAddsOneResponsePerLine : Prop :=
  ∀ (ls : List Script.Line) (s t : State), s.pending = [] → Script.run ls s = some t →
    t.pending = [] ∧ ∃ rs, t.responses = s.responses ++ rs ∧ rs.length = ls.length

/-! ## The byte images (20_memory.md) -/

/-- R31, R32: the image is 24 bytes, byte `4w + j` holds bits [8j+7:8j] of word `w`, byte `j` of the whole holds bits
[8j+7:8j] of the field, and reading it back gives the ExtFloat. -/
def Obligations.ImageIsTheFieldByteByByte : Prop :=
  ∀ v : ExtFloat,
    (Image.ofExt v).length = 24 ∧
    (∀ w < 6, ∀ j < 4, (Image.ofExt v)[4 * w + j]? = ((Image.words v)[w]?).map fun x => x.extractLsb' (8 * j) 8) ∧
    (∀ j < 24, (Image.ofExt v)[j]? = some ((Bus.ofExt v).extractLsb' (8 * j) 8)) ∧
    Image.toBus (Image.ofExt v) = some (Bus.ofExt v) ∧ Image.toExt (Image.ofExt v) = some v

/-- R33, R34: a Limb128 and the Limb128x16 of the same value have the same 16 bytes, the first 16 of an ExtFloat's. -/
def Obligations.WideImagesAgree : Prop :=
  ∀ v : ExtFloat,
    Image.ofLimb128x16 (to16 v.mant) = Image.ofLimb128 v.mant ∧
    Image.ofLimb128 v.mant = (Image.ofExt v).take 16 ∧ (Image.ofLimb128 v.mant).length = 16

/-! ## The client operations (47_extfloat_client_ops.md), for every value of the open parameters -/

/-- R182: the sign bit toggles, everything else stays; twice is nothing (the rule's own inference). -/
def Obligations.NegateTogglesSignOnly : Prop :=
  ∀ x : ExtFloat,
    Flag.signOf (Client.negate x) = !Flag.signOf x ∧
    (Client.negate x).flags &&& 0xFFFFFFFE#32 = x.flags &&& 0xFFFFFFFE#32 ∧
    (Client.negate x).mant = x.mant ∧ (Client.negate x).exp = x.exp ∧ Client.negate (Client.negate x) = x

/-- R203 (b): addition (for a symmetric sign of cancellation) and multiplication commute, flags and all. -/
def Obligations.AddAndMultiplyCommute : Prop :=
  ∀ (p : Config.Params) (a b : ExtFloat),
    (p.addEqualSign a b = p.addEqualSign b a → Client.add p a b = Client.add p b a) ∧
    Client.multiply p a b = Client.multiply p b a

/-- R203 (c), R185: a value plus its negation has a zero mantissa, the aligned exponent and the accumulated flags. -/
def Obligations.AddOfNegationIsZero : Prop :=
  ∀ (p : Config.Params) (a : ExtFloat),
    (Client.add p a (Client.negate a)).mant = 0 ∧
    (a.mant ≠ 0 → (Client.add p a (Client.negate a)).exp = a.exp) ∧
    (Client.add p a (Client.negate a)).flags =
      (a.flags &&& 0xFFFFFFFE#32) ||| (if p.addEqualSign a (Client.negate a) then 1 else 0)

/-- R181, R186, R194, R226, R221: the non-sign flags of a sum, difference or product are exactly the OR of the operands', so
`add` and `subtract` never set IMPOSSIBLE themselves; a quotient carries every flag of both operands; with a divisor that is
not zero it newly sets neither IMPOSSIBLE nor ZERODIV; REDPREC is set exactly where it is inherited or the native approximation
of the divisor is zero, and that is so of every divisor too small for the format. (Of bits 31 to 4 the
quotient clause says only that none is cleared. That bit 3 is ORed into the seed is R194's own reading, D24. The model's
choices: the canonical seed, log entry 10, and a free `f32_to_ext` value, log entry 12, have no error bit of their own; how
small is too small is a parameter, log entry 12.) -/
def Obligations.FlagsAccumulateThroughClientOps : Prop :=
  ∀ (p : Config.Params) (a b : ExtFloat),
    (Client.add p a b).flags &&& 0xFFFFFFFE#32 = Flag.accumulate a b ∧
    (Client.subtract p a b).flags &&& 0xFFFFFFFE#32 = Flag.accumulate a b ∧
    (Client.multiply p a b).flags &&& 0xFFFFFFFE#32 = Flag.accumulate a b ∧
    Flag.accumulate a b &&& (Client.divide p a b).flags = Flag.accumulate a b ∧
    (b.mant ≠ 0 →
      (Client.divide p a b).flags.getLsbD 1 = (a.flags.getLsbD 1 || b.flags.getLsbD 1) ∧
      (Client.divide p a b).flags.getLsbD 2 = (a.flags.getLsbD 2 || b.flags.getLsbD 2) ∧
      (Client.divide p a b).flags.getLsbD 3 =
        (a.flags.getLsbD 3 || b.flags.getLsbD 3 || F32.isZero (Client.extToF32 p b)) ∧
      (p.f32ZeroBelow ≤ -126 → b.magnitude < (2 : ℚ) ^ p.f32ZeroBelow → F32.isZero (Client.extToF32 p b) = true))

/-- R193: the sentinel of a zero divisor, whatever the dividend. -/
def Obligations.DivideByZeroGivesSentinel : Prop :=
  ∀ (p : Config.Params) (a b : ExtFloat), b.mant = 0 →
    (Client.divide p a b).mant = BitVec.allOnes 128 ∧ (Client.divide p a b).exp = 0xFFFEFFFF#32 ∧
    Flag.signOf (Client.divide p a b) = xor (Flag.signOf a) (Flag.signOf b) ∧
    (Client.divide p a b).flags.getLsbD 2 = true ∧
    (Client.divide p a b).flags &&& 0xFFFFFFFE#32 = Flag.accumulate a b ||| 0x4#32

/-- R196, R197, R250: the comparison is the order of the aligned mantissas, up to a distance of 128 that of the larger
exponent's mantissa and the other one divided by two to the distance; a zero is below every non-zero value and equal to any
zero. It ignores every flag, the sign among them; exchanging the operands negates it; a value is equal to its own negation. -/
def Obligations.CompareIgnoresSigns : Prop :=
  ∀ (p : Config.Params) (a b : ExtFloat) (fa fb : Word32),
    (let t := equalizeExp p.eqexpFar a b
     Client.compare p a b =
       if t.2.mant.toNat < t.1.mant.toNat then 1 else if t.1.mant.toNat < t.2.mant.toNat then -1 else 0) ∧
    (a.mant ≠ 0 → b.mant ≠ 0 → b.exp.toNat ≤ a.exp.toNat → a.exp.toNat ≤ b.exp.toNat + 128 →
      let m := b.mant.toNat / 2 ^ (a.exp.toNat - b.exp.toNat)
      Client.compare p a b = if m < a.mant.toNat then 1 else if a.mant.toNat < m then -1 else 0) ∧
    (a.mant = 0 → b.mant ≠ 0 → Client.compare p a b = -1) ∧
    (a.mant = 0 → b.mant = 0 → Client.compare p a b = 0) ∧
    Client.compare p { a with flags := fa } { b with flags := fb } = Client.compare p a b ∧
    Client.compare p b a = -Client.compare p a b ∧
    Client.compare p a (Client.negate a) = 0 ∧
    (Client.gt p a b = true ↔ Client.compare p a b = 1) ∧ (Client.lt p a b = true ↔ Client.compare p a b = -1) ∧
    (Client.eq p a b = true ↔ Client.compare p a b = 0) ∧ (Client.ge p a b = true ↔ 0 ≤ Client.compare p a b) ∧
    (Client.le p a b = true ↔ Client.compare p a b ≤ 0) ∧
    (Client.gt p a b = true ↔ Client.lt p b a = true) ∧ (Client.ge p a b = !Client.lt p a b)

/-- R203 (a), R198: a normal binary32 number survives the round trip; and every constructor, whatever the open values are,
delivers a zero or a normalised value with no error bit set. (A free value is normalised and its error bits are cleared: the
model's choice, log entries 12 and 13.) -/
def Obligations.NormalFloatsRoundTrip : Prop :=
  (∀ (p : Config.Params) (f : Word32), F32.isNormal f = true →
    Client.extToF32 p (Client.f32ToExt p f) = f ∧ (Client.f32ToExt p f).normalised = true) ∧
  ∀ v : ExtFloat,
    (∃ (p : Config.Params) (f : Word32), v = Client.f32ToExt p f) ∨ (∃ i, v = Client.i32ToExt i) ∨
      (∃ cs, v = Client.decimalStringToExt cs) →
    (v.mant = 0 ∨ v.normalised = true) ∧ v.flags &&& 0xE#32 = 0

/-- R189: the sign of a product is the XOR of the operand signs, whatever the operands. R190 with the value of R14: with the
default exponent constant (C1, log entry 9) and no exponent wrap, a product is the true product truncated towards zero: it is
normalised, its magnitude is at most the true one and within one unit of its last place, and its value has the sign of the
true one. -/
def Obligations.MultiplyTruncatesTrueProduct : Prop :=
  (∀ (p : Config.Params) (a b : ExtFloat),
    Flag.signOf (Client.multiply p a b) = xor (Flag.signOf a) (Flag.signOf b)) ∧
  ∀ (p : Config.Params) (a b : ExtFloat), p.mulExpAdj = mulExpAdjMinus128 → a.mant ≠ 0 → b.mant ≠ 0 →
    2 ^ 31 + 255 ≤ a.exp.toNat + b.exp.toNat → a.exp.toNat + b.exp.toNat < 2 ^ 32 + 2 ^ 31 →
    let r := Client.multiply p a b
    r.normalised = true ∧ r.magnitude ≤ a.magnitude * b.magnitude ∧
    a.magnitude * b.magnitude < r.magnitude + (2 : ℚ) ^ (r.trueExp - 128) ∧ 0 < r.value * (a.value * b.value)

/-- R183, R184, R185, R187, R244: what the client add and subtract give, for every value of the parameters, from the aligned
operands. With equal signs the sum, its exponent raised by 32 where the sum needed a 129th bit and dropped its low limb; with
different signs the larger mantissa minus the smaller, under the sign of the larger; with equal mantissas a zero at the
aligned exponent. Each is normalised. The exponent, raised by 32 or lowered by NORM, is a 32-bit word and wraps modulo 2^32
(D11, log entry 7, DEDUCED). That `subtract(a, b)` is `add(a, negate(b))` is R187's own reading (D22, log entry 9). -/
def Obligations.AddFollowsAlignedMantissas : Prop :=
  ∀ (p : Config.Params) (a b : ExtFloat),
    let t := equalizeExp p.eqexpFar a b
    let m := t.1.mant.toNat
    let n := t.2.mant.toNat
    (Flag.signOf a = Flag.signOf b → m + n < 2 ^ 128 →
      Client.add p a b = normalizeExt ⟨BitVec.ofNat 128 (m + n), a.flags ||| b.flags, t.1.exp⟩) ∧
    (Flag.signOf a = Flag.signOf b → 2 ^ 128 ≤ m + n →
      Client.add p a b =
        normalizeExt ⟨BitVec.ofNat 128 ((m + n) / 2 ^ 32), a.flags ||| b.flags, t.1.exp + 32#32⟩) ∧
    (Flag.signOf a ≠ Flag.signOf b → n < m →
      Client.add p a b =
        normalizeExt ⟨BitVec.ofNat 128 (m - n), Flag.accumulate a b ||| Flag.ofSign (Flag.signOf a), t.1.exp⟩) ∧
    (Flag.signOf a ≠ Flag.signOf b → m < n →
      Client.add p a b =
        normalizeExt ⟨BitVec.ofNat 128 (n - m), Flag.accumulate a b ||| Flag.ofSign (Flag.signOf b), t.1.exp⟩) ∧
    (Flag.signOf a ≠ Flag.signOf b → m = n →
      Client.add p a b = ⟨0, Flag.accumulate a b ||| Flag.ofSign (p.addEqualSign a b), t.1.exp⟩) ∧
    Client.subtract p a b = Client.add p a (Client.negate b)
end

