-- ==== Sys2Proof/Laws/Operands.lean ====
section
/-! SUPPORT. The small lemmas of the operand forms: limbs and digits as numbers, and every placement read back. -/

namespace Sys2Proof

theorem limb_toNat (a : Limb128) (i : Nat) : (limb a i).toNat = a.toNat / 2 ^ (32 * i) % 2 ^ 32 := by
  simp [limb, BitVec.extractLsb'_toNat, Nat.shiftRight_eq_div_pow]

theorem digit_toNat (w : Limb128x16) (k : Nat) : (digit w k).toNat = w.toNat / 2 ^ (16 * k) % 2 ^ 16 := by
  simp [digit, BitVec.extractLsb'_toNat, Nat.shiftRight_eq_div_pow]

/-- The number a concatenation holds. -/
theorem append_toNat {m n : Nat} (x : BitVec m) (y : BitVec n) : (x ++ y).toNat = x.toNat * 2 ^ n + y.toNat := by
  rw [BitVec.toNat_append, ← Nat.shiftLeft_add_eq_or_of_lt y.isLt, Nat.shiftLeft_eq]

theorem ofLimbs_toNat (l0 l1 l2 l3 : Limb) :
    (ofLimbs l0 l1 l2 l3).toNat =
      l0.toNat + l1.toNat * 2 ^ 32 + l2.toNat * 2 ^ 64 + l3.toNat * 2 ^ 96 := by
  simp only [ofLimbs, append_toNat]
  omega

theorem ofDigits_toNat (d0 d1 d2 d3 d4 d5 d6 d7 : Digit) :
    (ofDigits d0 d1 d2 d3 d4 d5 d6 d7).toNat =
      d0.toNat + d1.toNat * 2 ^ 16 + d2.toNat * 2 ^ 32 + d3.toNat * 2 ^ 48 + d4.toNat * 2 ^ 64 +
        d5.toNat * 2 ^ 80 + d6.toNat * 2 ^ 96 + d7.toNat * 2 ^ 112 := by
  simp only [ofDigits, append_toNat]
  omega

/-- A Limb128 is the number of its limbs (10_state.md rule R10). -/
theorem toNat_eq_limbs (a : Limb128) :
    a.toNat = (limb a 0).toNat + (limb a 1).toNat * 2 ^ 32 + (limb a 2).toNat * 2 ^ 64 + (limb a 3).toNat * 2 ^ 96 := by
  have h := a.isLt
  simp only [limb_toNat]
  omega

@[simp] theorem limb_ofLimbs_zero (l0 l1 l2 l3 : Limb) : limb (ofLimbs l0 l1 l2 l3) 0 = l0 := by
  apply BitVec.eq_of_toNat_eq
  rw [limb_toNat, ofLimbs_toNat]
  omega

@[simp] theorem limb_ofLimbs_one (l0 l1 l2 l3 : Limb) : limb (ofLimbs l0 l1 l2 l3) 1 = l1 := by
  apply BitVec.eq_of_toNat_eq
  rw [limb_toNat, ofLimbs_toNat]
  omega

@[simp] theorem limb_ofLimbs_two (l0 l1 l2 l3 : Limb) : limb (ofLimbs l0 l1 l2 l3) 2 = l2 := by
  apply BitVec.eq_of_toNat_eq
  rw [limb_toNat, ofLimbs_toNat]
  omega

@[simp] theorem limb_ofLimbs_three (l0 l1 l2 l3 : Limb) : limb (ofLimbs l0 l1 l2 l3) 3 = l3 := by
  apply BitVec.eq_of_toNat_eq
  rw [limb_toNat, ofLimbs_toNat]
  omega

/-- A Limb128 is rebuilt from its limbs. -/
@[simp] theorem ofLimbs_limbs (a : Limb128) : ofLimbs (limb a 0) (limb a 1) (limb a 2) (limb a 3) = a := by
  apply BitVec.eq_of_toNat_eq
  rw [ofLimbs_toNat, ← toNat_eq_limbs]

/-! Placements (rule R49). -/

theorem ofLimb_toNat (x : Limb) : (Bus.ofLimb x).toNat = x.toNat := by
  have := x.isLt
  simp only [Bus.ofLimb, BitVec.toNat_setWidth]
  omega

theorem ofWide_toNat (a : Limb128) : (Bus.ofWide a).toNat = a.toNat := by
  have := a.isLt
  simp only [Bus.ofWide, BitVec.toNat_setWidth]
  omega

theorem ofExt_toNat (v : ExtFloat) :
    (Bus.ofExt v).toNat = v.mant.toNat + v.flags.toNat * 2 ^ 128 + v.exp.toNat * 2 ^ 160 := by
  simp only [Bus.ofExt, append_toNat]
  omega

theorem wide_toNat (f : Bus) : (Bus.wide f).toNat = f.toNat % 2 ^ 128 := by
  simp [Bus.wide, BitVec.extractLsb'_toNat]

theorem busLimb_toNat (f : Bus) : (Bus.limb f).toNat = f.toNat % 2 ^ 32 := by
  simp [Bus.limb, BitVec.extractLsb'_toNat]

@[simp] theorem limb_ofLimb (x : Limb) : Bus.limb (Bus.ofLimb x) = x := by
  apply BitVec.eq_of_toNat_eq
  have := x.isLt
  rw [busLimb_toNat, ofLimb_toNat]
  omega

@[simp] theorem wide_ofWide (a : Limb128) : Bus.wide (Bus.ofWide a) = a := by
  apply BitVec.eq_of_toNat_eq
  have := a.isLt
  rw [wide_toNat, ofWide_toNat]
  omega

@[simp] theorem wide_ofExt (v : ExtFloat) : Bus.wide (Bus.ofExt v) = v.mant := by
  apply BitVec.eq_of_toNat_eq
  have := v.mant.isLt
  rw [wide_toNat, ofExt_toNat]
  omega

@[simp] theorem flags_ofExt (v : ExtFloat) : Bus.flags (Bus.ofExt v) = v.flags := by
  apply BitVec.eq_of_toNat_eq
  have h1 := v.mant.isLt
  have h2 := v.flags.isLt
  simp only [Bus.flags, BitVec.extractLsb'_toNat, Nat.shiftRight_eq_div_pow, ofExt_toNat]
  omega

@[simp] theorem exp_ofExt (v : ExtFloat) : Bus.exp (Bus.ofExt v) = v.exp := by
  apply BitVec.eq_of_toNat_eq
  have h1 := v.mant.isLt
  have h2 := v.flags.isLt
  have h3 := v.exp.isLt
  simp only [Bus.exp, BitVec.extractLsb'_toNat, Nat.shiftRight_eq_div_pow, ofExt_toNat]
  omega

@[simp] theorem ext_ofExt (v : ExtFloat) : Bus.ext (Bus.ofExt v) = v := by
  simp [Bus.ext]

/-! The masks. -/

theorem limbMask_bit (i : Nat) : Bus.limbMask.getLsbD i = decide (i < 32) := by
  simp only [Bus.limbMask, Bus.ofLimb, BitVec.getLsbD_setWidth, BitVec.getLsbD_allOnes]
  by_cases h : i < 32
  · simp only [h, decide_true, Bool.and_true, decide_eq_true_eq]; omega
  · simp only [h, decide_false, Bool.and_false]

theorem wideMask_bit (i : Nat) : Bus.wideMask.getLsbD i = decide (i < 128) := by
  simp only [Bus.wideMask, Bus.ofWide, BitVec.getLsbD_setWidth, BitVec.getLsbD_allOnes]
  by_cases h : i < 128
  · simp only [h, decide_true, Bool.and_true, decide_eq_true_eq]; omega
  · simp only [h, decide_false, Bool.and_false]

/-- A limb read under its mask is the limb. -/
@[simp] theorem limb_and_limbMask (f : Bus) : Bus.limb (f &&& Bus.limbMask) = Bus.limb f := by
  apply BitVec.eq_of_getLsbD_eq
  intro i hi
  simp only [Bus.limb, BitVec.getLsbD_extractLsb', BitVec.getLsbD_and, limbMask_bit]
  simp [hi]

/-- A wide value read under its mask is the wide value. -/
@[simp] theorem wide_and_wideMask (f : Bus) : Bus.wide (f &&& Bus.wideMask) = Bus.wide f := by
  apply BitVec.eq_of_getLsbD_eq
  intro i hi
  simp only [Bus.wide, BitVec.getLsbD_extractLsb', BitVec.getLsbD_and, wideMask_bit]
  simp [hi]

@[simp] theorem and_extMask (f : Bus) : f &&& Bus.extMask = f := by
  simp only [Bus.extMask, BitVec.and_allOnes]

/-- A limb on a field is zero outside its mask. -/
@[simp] theorem ofLimb_outside (x : Limb) : Bus.ofLimb x &&& ~~~Bus.limbMask = 0 := by
  apply BitVec.eq_of_getLsbD_eq
  intro i hi
  simp only [Bus.ofLimb, BitVec.getLsbD_and, BitVec.getLsbD_not, BitVec.getLsbD_setWidth, limbMask_bit]
  by_cases h : i < 32
  · simp [h]
  · simp [BitVec.getLsbD_of_ge x i (by omega)]

/-- A wide value on a field is zero outside its mask. -/
@[simp] theorem ofWide_outside (a : Limb128) : Bus.ofWide a &&& ~~~Bus.wideMask = 0 := by
  apply BitVec.eq_of_getLsbD_eq
  intro i hi
  simp only [Bus.ofWide, BitVec.getLsbD_and, BitVec.getLsbD_not, BitVec.getLsbD_setWidth, wideMask_bit]
  by_cases h : i < 128
  · simp [h]
  · simp [BitVec.getLsbD_of_ge a i (by omega)]

@[simp] theorem outside_extMask (f : Bus) : f &&& ~~~Bus.extMask = 0 := by
  simp [Bus.extMask]

/-! Numbers on a field. -/

theorem ofLimb_eq_ofNat (x : Limb) : Bus.ofLimb x = BitVec.ofNat 192 x.toNat := by
  apply BitVec.eq_of_toNat_eq
  have := x.isLt
  rw [ofLimb_toNat, BitVec.toNat_ofNat]
  omega

theorem ofWide_eq_ofNat (a : Limb128) : Bus.ofWide a = BitVec.ofNat 192 a.toNat := by
  apply BitVec.eq_of_toNat_eq
  have := a.isLt
  rw [ofWide_toNat, BitVec.toNat_ofNat]
  omega

theorem ofExt_eq_ofNat (v : ExtFloat) :
    Bus.ofExt v = BitVec.ofNat 192 (v.mant.toNat + v.flags.toNat * 2 ^ 128 + v.exp.toNat * 2 ^ 160) := by
  apply BitVec.eq_of_toNat_eq
  rw [BitVec.toNat_ofNat, Nat.mod_eq_of_lt]
  · exact ofExt_toNat v
  · rw [← ofExt_toNat]; exact (Bus.ofExt v).isLt

end Sys2Proof
end

