-- ==== Sys2Proof/Laws/Arith.lean ====
section
/-! SUPPORT. One lemma for each arithmetic operation of the units: what number it gives. -/

namespace Sys2Proof

/-! The adder and the negator. -/

theorem addWithCarry_toNat (a b : Limb) (c : Nat) (hc : c ≤ 1) :
    (addWithCarry a b c).1.toNat + 2 ^ 32 * (addWithCarry a b c).2.toNat = a.toNat + b.toNat + c := by
  have ha := a.isLt
  have hb := b.isLt
  simp only [addWithCarry, carryOut, BitVec.toNat_ofNat]
  by_cases h : 2 ^ 32 ≤ a.toNat + b.toNat + c
  · simp only [h, decide_true, Bool.toNat_true]; omega
  · simp only [h, decide_false, Bool.toNat_false]; omega

/-- The ripple gives the exact sum: rule R77 (a). -/
theorem addFull_toNat (a b : Limb128) :
    (addFull a b).1.toNat + 2 ^ 128 * (addFull a b).2.toNat = a.toNat + b.toNat := by
  simp only [addFull, ofLimbs_toNat]
  have bl : ∀ x : Bool, x.toNat ≤ 1 := Bool.toNat_le
  have h0 := addWithCarry_toNat (limb a 0) (limb b 0) 0 (by omega)
  have h1 := addWithCarry_toNat (limb a 1) (limb b 1) _ (bl (addWithCarry (limb a 0) (limb b 0) 0).2)
  have h2 := addWithCarry_toNat (limb a 2) (limb b 2) _ (bl (addWithCarry (limb a 1) (limb b 1) (addWithCarry (limb a 0) (limb b 0) 0).2.toNat).2)
  have h3 := addWithCarry_toNat (limb a 3) (limb b 3) _ (bl (addWithCarry (limb a 2) (limb b 2) (addWithCarry (limb a 1) (limb b 1) (addWithCarry (limb a 0) (limb b 0) 0).2.toNat).2.toNat).2)
  rw [toNat_eq_limbs a, toNat_eq_limbs b]
  omega

theorem addFull_sum (a b : Limb128) : (addFull a b).1.toNat = (a.toNat + b.toNat) % 2 ^ 128 := by
  have h := addFull_toNat a b
  have := (addFull a b).1.isLt
  cases hc : (addFull a b).2 <;> simp only [hc, Bool.toNat_true, Bool.toNat_false] at h <;> omega

theorem addFull_carry (a b : Limb128) : (addFull a b).2 = decide (2 ^ 128 ≤ a.toNat + b.toNat) := by
  have h := addFull_toNat a b
  have := (addFull a b).1.isLt
  cases hc : (addFull a b).2 <;> simp only [hc, Bool.toNat_true, Bool.toNat_false] at h
  · symm; rw [decide_eq_false_iff_not]; omega
  · symm; rw [decide_eq_true_iff]; omega

theorem addFull_comm (a b : Limb128) : addFull a b = addFull b a := by
  apply Prod.ext
  · apply BitVec.eq_of_toNat_eq
    rw [addFull_sum, addFull_sum, Nat.add_comm]
  · rw [addFull_carry, addFull_carry, Nat.add_comm]

theorem addHi_of_carry (a b : Limb128) (h : 2 ^ 128 ≤ a.toNat + b.toNat) :
    (addHi a b).1.toNat = (a.toNat + b.toNat) / 2 ^ 32 ∧ (addHi a b).2 = true := by
  have hc : (addFull a b).2 = true := by rw [addFull_carry]; simpa using h
  have hs := addFull_toNat a b
  have hl := toNat_eq_limbs (addFull a b).1
  have h0 := (limb (addFull a b).1 0).isLt
  simp only [addHi, hc, if_true, and_true, ofLimbs_toNat, BitVec.toNat_ofNat]
  simp only [hc, Bool.toNat_true] at hs
  omega

theorem addHi_of_no_carry (a b : Limb128) (h : a.toNat + b.toNat < 2 ^ 128) :
    (addHi a b).1.toNat = a.toNat + b.toNat ∧ (addHi a b).2 = false := by
  have hc : (addFull a b).2 = false := by rw [addFull_carry]; simpa using h
  have hs := addFull_sum a b
  simp only [addHi, hc, Bool.false_eq_true, if_false, and_true, hs]
  omega

theorem addHi_comm (a b : Limb128) : addHi a b = addHi b a := by
  simp only [addHi, addFull_comm a b]

theorem negate_toNat (a : Limb128) : (negate a).toNat = (2 ^ 128 - a.toNat) % 2 ^ 128 := by
  have ha := toNat_eq_limbs a
  have hl := a.isLt
  simp only [negate, addFull_sum, ofLimbs_toNat, BitVec.toNat_not, BitVec.toNat_ofNat]
  have h0 := (limb a 0).isLt
  have h1 := (limb a 1).isLt
  have h2 := (limb a 2).isLt
  have h3 := (limb a 3).isLt
  omega

theorem subtract_toNat (a b : Limb128) : (subtract a b).toNat = (a.toNat + 2 ^ 128 - b.toNat) % 2 ^ 128 := by
  have ha := a.isLt
  have hb := b.isLt
  simp only [subtract, addFull_sum, negate_toNat]
  omega

/-! The counters and the comparator. -/

/-- The scan finds the highest set bit of a non-zero number that fits. -/
theorem highestBelow_spec (v : Nat) : ∀ w, v ≠ 0 → v < 2 ^ w →
    ∃ k, highestBelow v w = some k ∧ k < w ∧ 2 ^ k ≤ v ∧ v < 2 ^ (k + 1)
  | 0, h0, h => by omega
  | w + 1, h0, h => by
    simp only [highestBelow]
    by_cases hb : v.testBit w
    · simp only [hb, if_true]
      refine ⟨w, rfl, by omega, Nat.ge_two_pow_of_testBit hb, h⟩
    · simp only [hb, Bool.false_eq_true, if_false]
      have hlt : v < 2 ^ w := by
        by_contra hge
        have : v / 2 ^ w = 1 := by
          apply Nat.div_eq_of_lt_le <;> omega
        rw [Nat.testBit_eq_decide_div_mod_eq, this] at hb
        simp at hb
      obtain ⟨k, h1, h2, h3, h4⟩ := highestBelow_spec v w h0 hlt
      exact ⟨k, h1, by omega, h3, h4⟩

theorem highestBelow_zero : ∀ w, highestBelow 0 w = none
  | 0 => rfl
  | w + 1 => by simp [highestBelow, highestBelow_zero w]

@[simp] theorem highestSetBit_zero : highestSetBit 0#32 = -1 := by decide

theorem highestSetBit_spec (x : Limb) (h : x ≠ 0#32) :
    ∃ k : Nat, highestSetBit x = k ∧ k ≤ 31 ∧ 2 ^ k ≤ x.toNat ∧ x.toNat < 2 ^ (k + 1) := by
  have h0 : x.toNat ≠ 0 := fun hx => h (BitVec.eq_of_toNat_eq (by simpa using hx))
  obtain ⟨k, h1, h2, h3, h4⟩ := highestBelow_spec x.toNat 32 h0 x.isLt
  refine ⟨k, ?_, by omega, h3, h4⟩
  simp [highestSetBit, h1]

/-- A limb is zero exactly when its number is. -/
theorem limb_ne_zero {x : Limb} : x ≠ 0#32 ↔ x.toNat ≠ 0 := by
  constructor
  · exact fun h hx => h (BitVec.eq_of_toNat_eq (by simpa using hx))
  · rintro h rfl; exact h rfl

theorem limb_eq_zero {x : Limb} : x = 0#32 ↔ x.toNat = 0 := by
  have := @limb_ne_zero x
  tauto

/-- The cases of the limb count. -/
theorem leadingZeroLimbs_cases (a : Limb128) :
    (leadingZeroLimbs a = 0 ∧ limb a 3 ≠ 0#32) ∨
    (leadingZeroLimbs a = 1 ∧ limb a 3 = 0#32 ∧ limb a 2 ≠ 0#32) ∨
    (leadingZeroLimbs a = 2 ∧ limb a 3 = 0#32 ∧ limb a 2 = 0#32 ∧ limb a 1 ≠ 0#32) ∨
    (leadingZeroLimbs a = 3 ∧ limb a 3 = 0#32 ∧ limb a 2 = 0#32 ∧ limb a 1 = 0#32 ∧ limb a 0 ≠ 0#32) ∨
    (leadingZeroLimbs a = 4 ∧ limb a 3 = 0#32 ∧ limb a 2 = 0#32 ∧ limb a 1 = 0#32 ∧ limb a 0 = 0#32) := by
  unfold leadingZeroLimbs
  by_cases h3 : limb a 3 = 0#32 <;> by_cases h2 : limb a 2 = 0#32 <;> by_cases h1 : limb a 1 = 0#32 <;>
    by_cases h0 : limb a 0 = 0#32 <;> simp [h3, h2, h1, h0]

/-- The limb count is 4 exactly for zero. -/
theorem leadingZeroLimbs_eq_four (a : Limb128) : leadingZeroLimbs a = 4 ↔ a.toNat = 0 := by
  have h := leadingZeroLimbs_cases a
  simp only [limb_ne_zero, limb_eq_zero] at h
  have := toNat_eq_limbs a
  omega

/-- The bit count brings the highest set bit to bit 127 and loses none (rules R129, R130 (d)). -/
theorem leadingZeroBits_spec (a : Limb128) (h : a.toNat ≠ 0) :
    leadingZeroBits a ≤ 127 ∧ 2 ^ 127 ≤ a.toNat * 2 ^ leadingZeroBits a ∧
      a.toNat * 2 ^ leadingZeroBits a < 2 ^ 128 := by
  suffices H : ∃ k, leadingZeroBits a = 127 - k ∧ k ≤ 127 ∧ 2 ^ k ≤ a.toNat ∧ a.toNat < 2 ^ (k + 1) by
    obtain ⟨k, h1, h2, h3, h4⟩ := H
    rw [h1]
    refine ⟨by omega, ?_, ?_⟩
    · calc 2 ^ 127 = 2 ^ k * 2 ^ (127 - k) := by rw [← Nat.pow_add]; congr 1; omega
        _ ≤ _ := Nat.mul_le_mul_right _ h3
    · calc a.toNat * 2 ^ (127 - k) < 2 ^ (k + 1) * 2 ^ (127 - k) := Nat.mul_lt_mul_of_pos_right h4 (by positivity)
        _ = 2 ^ 128 := by rw [← Nat.pow_add]; congr 1; omega
  have hv := toNat_eq_limbs a
  have key : ∀ (z : Nat) (x : Limb) (lo : Nat), z ≤ 3 → leadingZeroLimbs a = z → limb a (3 - z) = x → x ≠ 0#32 →
      a.toNat = lo + x.toNat * 2 ^ (32 * (3 - z)) → lo < 2 ^ (32 * (3 - z)) →
      ∃ k, leadingZeroBits a = 127 - k ∧ k ≤ 127 ∧ 2 ^ k ≤ a.toNat ∧ a.toNat < 2 ^ (k + 1) := by
    intro z x lo hz hlz hx hx0 hval hlo
    obtain ⟨k, hk, hk31, hk1, hk2⟩ := highestSetBit_spec x hx0
    refine ⟨32 * (3 - z) + k, ?_, by omega, ?_, ?_⟩
    · simp only [leadingZeroBits, hlz, hx, hk]
      omega
    · calc 2 ^ (32 * (3 - z) + k) = 2 ^ k * 2 ^ (32 * (3 - z)) := by rw [Nat.pow_add, Nat.mul_comm]
        _ ≤ x.toNat * 2 ^ (32 * (3 - z)) := Nat.mul_le_mul_right _ hk1
        _ ≤ _ := by omega
    · calc a.toNat < (x.toNat + 1) * 2 ^ (32 * (3 - z)) := by rw [hval, Nat.add_mul]; omega
        _ ≤ 2 ^ (k + 1) * 2 ^ (32 * (3 - z)) := Nat.mul_le_mul_right _ hk2
        _ = 2 ^ (32 * (3 - z) + k + 1) := by rw [← Nat.pow_add]; congr 1; omega
  have b0 := (limb a 0).isLt
  have b1 := (limb a 1).isLt
  have b2 := (limb a 2).isLt
  have b3 := (limb a 3).isLt
  rcases leadingZeroLimbs_cases a with ⟨hz, h3⟩ | ⟨hz, h3, h2⟩ | ⟨hz, h3, h2, h1⟩ | ⟨hz, h3, h2, h1, h0⟩ | ⟨hz, -⟩
  · exact key 0 (limb a 3) ((limb a 0).toNat + (limb a 1).toNat * 2 ^ 32 + (limb a 2).toNat * 2 ^ 64) (by omega) hz rfl h3
      (by omega) (by omega)
  · exact key 1 (limb a 2) ((limb a 0).toNat + (limb a 1).toNat * 2 ^ 32) (by omega) hz rfl h2
      (by rw [limb_eq_zero] at h3; omega) (by omega)
  · exact key 2 (limb a 1) (limb a 0).toNat (by omega) hz rfl h1
      (by rw [limb_eq_zero] at h3 h2; omega) (by omega)
  · exact key 3 (limb a 0) 0 (by omega) hz rfl h0 (by rw [limb_eq_zero] at h3 h2 h1; omega) (by omega)
  · exact absurd ((leadingZeroLimbs_eq_four a).mp hz) h

/-- The lexicographic comparison is the order of the numbers (rule R130 (c)). -/
theorem compare3_eq (a b : Limb128) :
    compare3 a b = if b.toNat < a.toNat then 1 else if a.toNat < b.toNat then -1 else 0 := by
  have ha := toNat_eq_limbs a
  have hb := toNat_eq_limbs b
  have a0 := (limb a 0).isLt
  have a1 := (limb a 1).isLt
  have a2 := (limb a 2).isLt
  have b0 := (limb b 0).isLt
  have b1 := (limb b 1).isLt
  have b2 := (limb b 2).isLt
  simp only [compare3, compareLimbs, BitVec.lt_def]
  split_ifs <;> first | rfl | (exfalso; omega)

/-! The shifter. -/

theorem shiftBitsUp_toNat (a : Limb128) (n : Nat) : (shiftBitsUp a n).toNat = a.toNat * 2 ^ n % 2 ^ 128 := by
  simp [shiftBitsUp]

theorem shiftBitsDown_toNat (a : Limb128) (n : Nat) : (shiftBitsDown a n).toNat = a.toNat / 2 ^ n := by
  have h : a.toNat / 2 ^ n < 2 ^ 128 := Nat.lt_of_le_of_lt (Nat.div_le_self _ _) a.isLt
  simp only [shiftBitsDown, BitVec.toNat_ofNat]
  exact Nat.mod_eq_of_lt h

theorem shiftLimbsUp_toNat (a : Limb128) (n : Nat) (h : n ≤ 4) :
    (shiftLimbsUp a n).toNat = a.toNat * 2 ^ (32 * n) % 2 ^ 128 := by
  have ha := toNat_eq_limbs a
  have a0 := (limb a 0).isLt
  have a1 := (limb a 1).isLt
  have a2 := (limb a 2).isLt
  have a3 := (limb a 3).isLt
  have hn : n = 0 ∨ n = 1 ∨ n = 2 ∨ n = 3 ∨ n = 4 := by omega
  rcases hn with rfl | rfl | rfl | rfl | rfl <;>
    simp [shiftLimbsUp, limbUp, ofLimbs_toNat] <;> omega

theorem shiftLimbsDown_toNat (a : Limb128) (n : Nat) (h : n ≤ 4) :
    (shiftLimbsDown a n).toNat = a.toNat / 2 ^ (32 * n) := by
  have ha := toNat_eq_limbs a
  have a0 := (limb a 0).isLt
  have a1 := (limb a 1).isLt
  have a2 := (limb a 2).isLt
  have a3 := (limb a 3).isLt
  have hn : n = 0 ∨ n = 1 ∨ n = 2 ∨ n = 3 ∨ n = 4 := by omega
  rcases hn with rfl | rfl | rfl | rfl | rfl <;>
    simp [shiftLimbsDown, limbDown, ofLimbs_toNat] <;> omega

theorem shiftUp_toNat (a : Limb128) (n : Nat) (h : n ≤ 128) :
    (shiftUp a n).toNat = a.toNat * 2 ^ n % 2 ^ 128 := by
  rw [shiftUp, shiftBitsUp_toNat, shiftLimbsUp_toNat a _ (by omega), Nat.mod_mul_mod, Nat.mul_assoc, ← Nat.pow_add]
  congr 3
  omega

theorem shiftDown_toNat (a : Limb128) (n : Nat) (h : n ≤ 128) :
    (shiftDown a n).toNat = a.toNat / 2 ^ n := by
  rw [shiftDown, shiftBitsDown_toNat, shiftLimbsDown_toNat a _ (by omega), Nat.div_div_eq_div_mul, ← Nat.pow_add]
  congr 2
  omega

/-! The multiplier. -/

theorem product_lt (a b : Limb128) : product a b < 2 ^ 256 := by
  have ha := a.isLt
  have hb := b.isLt
  calc a.toNat * b.toNat < 2 ^ 128 * 2 ^ 128 := Nat.mul_lt_mul'' ha hb
    _ = 2 ^ 256 := by norm_num

theorem multiplyFull_toNat (a b : Limb128) :
    (multiplyFull a b).1.toNat = product a b / 2 ^ 128 ∧ (multiplyFull a b).2.toNat = product a b % 2 ^ 128 := by
  have h := product_lt a b
  simp only [multiplyFull, BitVec.toNat_ofNat]
  omega

theorem multiplyLo_toNat (a b : Limb128) : (multiplyLo a b).toNat = product a b % 2 ^ 128 :=
  (multiplyFull_toNat a b).2

/-- The product's shift is the one that sets bit 255 (rule R94). -/
theorem productShift_spec (P : Nat) (h0 : P ≠ 0) (h : P < 2 ^ 256) :
    productShift P ≤ 255 ∧ 2 ^ 255 ≤ P * 2 ^ productShift P ∧ P * 2 ^ productShift P < 2 ^ 256 := by
  obtain ⟨k, h1, h2, h3, h4⟩ := highestBelow_spec P 256 h0 h
  simp only [productShift, h1, Option.getD_some]
  refine ⟨by omega, ?_, ?_⟩
  · calc 2 ^ 255 = 2 ^ k * 2 ^ (255 - k) := by rw [← Nat.pow_add]; congr 1; omega
      _ ≤ _ := Nat.mul_le_mul_right _ h3
  · calc P * 2 ^ (255 - k) < 2 ^ (k + 1) * 2 ^ (255 - k) := Nat.mul_lt_mul_of_pos_right h4 (by positivity)
      _ = 2 ^ 256 := by rw [← Nat.pow_add]; congr 1; omega

/-! The divider. -/

theorem divmod_of_ne (a b : Limb128) (h : b.toNat ≠ 0) :
    (divmod a b).1.toNat = a.toNat / b.toNat ∧ (divmod a b).2.1.toNat = a.toNat % b.toNat ∧
      (divmod a b).2.2 = false := by
  have hb : b ≠ 0#128 := by rintro rfl; exact h rfl
  have hd : divideByZero b = false := by simpa [divideByZero] using hb
  have h1 : a.toNat / b.toNat < 2 ^ 128 := Nat.lt_of_le_of_lt (Nat.div_le_self _ _) a.isLt
  have h2 : a.toNat % b.toNat < 2 ^ 128 := Nat.lt_of_le_of_lt (Nat.mod_le _ _) a.isLt
  simp only [divmod, hd, Bool.false_eq_true, if_false, BitVec.toNat_ofNat, and_true]
  exact ⟨Nat.mod_eq_of_lt h1, Nat.mod_eq_of_lt h2⟩

/-! The re-encoder. -/

theorem lowDigit_toNat (l : Limb) : (lowDigit l).toNat = l.toNat % 2 ^ 16 := by
  simp [lowDigit]

theorem highDigit_toNat (l : Limb) : (highDigit l).toNat = l.toNat / 2 ^ 16 := by
  have := l.isLt
  simp only [highDigit, BitVec.toNat_ofNat]
  omega

theorem joinDigits_toNat (lo hi : Digit) : (joinDigits lo hi).toNat = lo.toNat + hi.toNat * 2 ^ 16 := by
  have h1 := lo.isLt
  have h2 := hi.isLt
  simp only [joinDigits, BitVec.toNat_ofNat]
  omega

/-! The aligner. -/

theorem isZero_iff (m : Limb128) : isZero m = true ↔ m = 0#128 := by simp [isZero]

/-- Up to a distance of 128 the parameter does not matter (rule R163). -/
theorem alignDown_near (far : Limb128 → Nat → Limb128) (m : Limb128) (d : Nat) (h : d ≤ 128) :
    (alignDown far m d).toNat = m.toNat / 2 ^ d := by
  simp [alignDown, h, shiftDown_toNat]

/-- With the spec's value of the parameter the alignment is division by two to the distance (rule R163). -/
theorem alignDown_zero (m : Limb128) (d : Nat) : (alignDown eqexpFarZero m d).toNat = m.toNat / 2 ^ d := by
  by_cases h : d ≤ 128
  · exact alignDown_near _ m d h
  · have h1 : m.toNat < 2 ^ d := Nat.lt_of_lt_of_le m.isLt (Nat.pow_le_pow_right (by omega) (by omega))
    simp [alignDown, h, eqexpFarZero, Nat.div_eq_of_lt h1]

end Sys2Proof
end

