-- ==== Sys2Proof/Laws/Client.lean ====
section
/-! SUPPORT. What the shared pieces of the client operations give: the block responses they ask for, the two sums of
`add`, and what a constructor does with a free value. -/

namespace Sys2Proof

open Machine

theorem normalizeExt_flags (x : ExtFloat) : (normalizeExt x).flags = x.flags := by
  unfold normalizeExt; split <;> rfl

theorem normalizeExt_of_zero (x : ExtFloat) (h : x.mant = 0) : normalizeExt x = x := by
  have : leadingZeroLimbs x.mant = 4 := (leadingZeroLimbs_eq_four _).mpr (by simp [h])
  simp [normalizeExt, this]

/-- The one thing NORM does to a non-zero mantissa (rules R166 to R168). -/
theorem normalizeExt_of_ne (x : ExtFloat) (h : x.mant ≠ 0) : ∃ k, k ≤ 127 ∧
    2 ^ 127 ≤ x.mant.toNat * 2 ^ k ∧ x.mant.toNat * 2 ^ k < 2 ^ 128 ∧
    normalizeExt x = ⟨BitVec.ofNat 128 (x.mant.toNat * 2 ^ k), x.flags, x.exp - BitVec.ofNat 32 k⟩ := by
  have h0 : x.mant.toNat ≠ 0 := fun hx => h (BitVec.eq_of_toNat_eq (by simpa using hx))
  obtain ⟨h1, h2, h3⟩ := leadingZeroBits_spec x.mant h0
  have h4 : leadingZeroLimbs x.mant ≠ 4 := fun e => h0 ((leadingZeroLimbs_eq_four _).mp e)
  refine ⟨_, h1, h2, h3, ?_⟩
  simp only [normalizeExt, h4, if_false, ExtFloat.mk.injEq, and_true]
  apply BitVec.eq_of_toNat_eq
  rw [shiftUp_toNat _ _ (by omega)]; simp

namespace Flag

/-- An error bit is bit 1, 2 or 3 (60_exceptions.md rule R221), and none is left. -/
theorem withoutErrors_error (f : Word32) (i : Nat) (h : i = 1 ∨ i = 2 ∨ i = 3) :
    (withoutErrors f).getLsbD i = false := by
  rcases h with rfl | rfl | rfl <;> simp [withoutErrors, errors, impossible, zeroDiv, redPrec]

end Flag

namespace Client

theorem askEqexp_eq (p : Config.Params) (a b : ExtFloat) : askEqexp p a b = equalizeExp p.eqexpFar a b := by
  simp [askEqexp, eqexpRsp]

theorem askNorm_eq (m : Limb128) (f e : Word32) : askNorm m f e = normalizeExt ⟨m, f, e⟩ := by
  simp [askNorm, normRsp]

/-- The three answers of CMP, with what each says of the values. -/
theorem cmpRsp_cases (a b : Limb128) :
    ((cmpRsp a b).S = int32 1 ∧ b.toNat < a.toNat) ∨ ((cmpRsp a b).S = int32 (-1) ∧ a.toNat < b.toNat) ∨
      ((cmpRsp a b).S = int32 0 ∧ a = b) := by
  simp only [cmpRsp, compare3_eq]
  split_ifs with h1 h2
  · exact .inl ⟨rfl, h1⟩
  · exact .inr (.inl ⟨rfl, h2⟩)
  · exact .inr (.inr ⟨rfl, BitVec.eq_of_toNat_eq (by omega)⟩)

/-- The sum of equal signs, over the arithmetic of the adder (rule R183). -/
theorem addSame_eq (a b a' b' : ExtFloat) : addSame a b a' b' =
    normalizeExt ⟨(addHi a'.mant b'.mant).1, a.flags ||| b.flags,
      a'.exp + if (addHi a'.mant b'.mant).2 then 32#32 else 0#32⟩ := by
  simp [addSame, askNorm_eq, addhiRsp]; rfl

/-- The sum of different signs (rules R184, R185): the branch of rule R186 is not reached. -/
theorem addDiffer_eq (p : Config.Params) (a b a' b' : ExtFloat) : addDiffer p a b a' b' =
    if b'.mant.toNat < a'.mant.toNat then
      normalizeExt ⟨Sys2Proof.subtract a'.mant b'.mant, Flag.accumulate a b ||| Flag.ofSign (Flag.signOf a), a'.exp⟩
    else if a'.mant.toNat < b'.mant.toNat then
      normalizeExt ⟨Sys2Proof.subtract b'.mant a'.mant, Flag.accumulate a b ||| Flag.ofSign (Flag.signOf b), a'.exp⟩
    else ⟨0, Flag.accumulate a b ||| Flag.ofSign (p.addEqualSign a b), a'.exp⟩ := by
  unfold addDiffer
  rcases cmpRsp_cases a'.mant b'.mant with ⟨h, h'⟩ | ⟨h, h'⟩ | ⟨h, h'⟩
  · simp only [h]; simp [askNorm_eq, h', subRsp]
  · simp only [h]
    rw [if_neg (by decide), if_pos trivial, if_neg (by omega), if_pos h']; simp [askNorm_eq, subRsp]
  · simp only [h]
    rw [if_neg (by decide), if_neg (by decide), if_pos trivial, if_neg (by simp [h']), if_neg (by simp [h']),
      askNorm_eq]
    have : Bus.wide (subRsp a'.mant b'.mant).X = 0 := by
      simp only [subRsp, wide_ofWide]
      apply BitVec.eq_of_toNat_eq
      rw [subtract_toNat, h']
      have := b'.mant.isLt
      simp
    rw [this, normalizeExt_of_zero _ rfl]

/-- What a client sees of a free value: normalised, its error bits cleared (rules R198, R221). -/
theorem construct_eq (v : ExtFloat) : construct v = normalizeExt ⟨v.mant, Flag.withoutErrors v.flags, v.exp⟩ :=
  askNorm_eq _ _ _

end Client
end Sys2Proof
end

