-- ==== Sys2Proof/Laws/Decode.lean ====
section
/-! SUPPORT. The operation codes are read back, and what the decoder answers. -/

namespace Sys2Proof

@[simp] theorem ofCode_code (o : Op) : Op.ofCode o.code = some o := by
  cases o <;> decide

theorem mem_all (o : Op) : o ∈ Op.all := by
  cases o <;> decide

/-- The operation a code selects has that code. -/
theorem code_of_ofCode {c : OpCode} {o : Op} (h : Op.ofCode c = some o) : o.code = c := by
  have := List.find?_some h
  simpa using this

theorem ofCode_eq_some {c : OpCode} {o : Op} : Op.ofCode c = some o ↔ o.code = c :=
  ⟨code_of_ofCode, fun h => h ▸ ofCode_code o⟩

theorem ofCode_eq_none {c : OpCode} : Op.ofCode c = none ↔ ∀ o : Op, o.code ≠ c := by
  constructor
  · intro h o ho
    rw [ofCode_eq_some.mpr ho] at h
    cases h
  · intro h
    cases hc : Op.ofCode c with
    | none => rfl
    | some o => exact absurd (code_of_ofCode hc) (h o)

/-- Two operations with one code are one operation: no two rows of the table overlap. -/
theorem code_inj {o o' : Op} (h : o.code = o'.code) : o = o' := by
  have h1 := ofCode_code o
  rw [h, ofCode_code] at h1
  exact (Option.some.inj h1).symm

/-- The count of an operation that reads one is legal exactly up to its largest (rule R50). -/
theorem countLegal_iff {o : Op} {m : Nat} (h : o.maxCount = some m) (n : Word32) :
    o.countLegal n = true ↔ n.toNat ≤ m := by
  simp [Op.countLegal, h]

/-- What the decoder answers. -/
theorem decode_eq_ok {r : Request} {i : Instr} :
    decode r = .ok i ↔ ∃ o : Op, o.code = r.op ∧ o.countLegal r.N = true ∧ i = o.read r := by
  unfold decode
  constructor
  · intro h
    split at h
    · cases h
    · rename_i o ho
      split at h
      · cases h
        exact ⟨o, code_of_ofCode ho, ‹_›, rfl⟩
      · cases h
  · rintro ⟨o, ho, hn, rfl⟩
    rw [ofCode_eq_some.mpr ho]
    simp [hn]

@[simp] theorem op_read (o : Op) (r : Request) : (o.read r).op = o := by
  cases o <;> rfl

theorem count_read (o : Op) (r : Request) : o.countLegal (o.read r).count = o.countLegal r.N := by
  cases o <;> rfl

/-- The decoder answers well-formed instructions only. -/
theorem decode_wellFormed {r : Request} {i : Instr} (h : decode r = .ok i) : i.wellFormed = true := by
  obtain ⟨o, -, hn, rfl⟩ := decode_eq_ok.mp h
  simp [Instr.wellFormed, count_read, hn]

theorem encode_op (i : Instr) : (encode i).op = i.op.code := by
  cases i <;> rfl

theorem countLegal_encode (i : Instr) : i.op.countLegal (encode i).N = i.wellFormed := by
  cases i <;> rfl

end Sys2Proof
end

