-- ==== Sys2Proof/Laws/State.lean ====
section
/-! SUPPORT. The field of every update of the state, and what each operation on the state can answer. -/

namespace Sys2Proof.Machine

@[simp] theorem present_pending (r : Request) (s : State) : (present r s).pending = s.pending ++ [r] := rfl
@[simp] theorem present_responses (r : Request) (s : State) : (present r s).responses = s.responses := rfl
@[simp] theorem presentFirst_pending (r : Request) (s : State) : (presentFirst r s).pending = r :: s.pending := rfl
@[simp] theorem presentFirst_responses (r : Request) (s : State) : (presentFirst r s).responses = s.responses := rfl
@[simp] theorem reset_pending : State.reset.pending = [] := rfl
@[simp] theorem reset_responses : State.reset.responses = [] := rfl

theorem respond_eq (r : Response) (s : State) :
    respond r s = .next { pending := s.pending, responses := s.responses ++ [r] } := rfl

/-- Giving a response always completes, with one response more and nothing else changed. -/
theorem respond_next {r : Response} {s t : State} (h : respond r s = .next t) :
    t.pending = s.pending ∧ t.responses = s.responses ++ [r] := by
  cases h
  exact ⟨rfl, rfl⟩

theorem respondCounted_legal {o : Op} {n : Word32} (h : o.countLegal n = true) (r : Response) (s : State) :
    respondCounted o n r s = respond r s := by
  simp [respondCounted, h]

theorem respondCounted_illegal {o : Op} {n : Word32} (h : o.countLegal n = false) (r : Response) (s : State) :
    respondCounted o n r s = refuse (.countOutOfRange o n) := by
  simp [respondCounted, h]

theorem takeRequest_nil {s : State} (h : s.pending = []) : takeRequest s = none := by
  simp [takeRequest, h]

theorem takeRequest_cons {s : State} {r : Request} {rest : List Request} (h : s.pending = r :: rest) :
    takeRequest s = some (r, { s with pending := rest }) := by
  simp [takeRequest, h]

end Sys2Proof.Machine
end

