-- ==== Sys2Proof/Laws/Exec.lean ====
section
/-! SUPPORT. What `exec` and `step` can answer, once for all. -/

namespace Sys2Proof.Machine

/-- `exec` gives the block's response of the instruction if its count is legal and refuses it otherwise. -/
theorem exec_cases (i : Instr) (s : State) :
    exec i s = respondCounted i.op i.count (answer i) s := by
  cases i <;> rfl

theorem exec_next {i : Instr} {s t : State} (h : exec i s = .next t) :
    i.wellFormed = true ∧ t.pending = s.pending ∧ t.responses = s.responses ++ [answer i] := by
  rw [exec_cases] at h
  cases hw : i.op.countLegal i.count with
  | true =>
    rw [respondCounted_legal hw] at h
    exact ⟨hw, respond_next h⟩
  | false =>
    rw [respondCounted_illegal hw] at h
    cases h

/-- Every outcome of a step: idle, one transaction of a well-formed request, or a refusal of one that is not. -/
theorem step_cases (s : State) :
    (s.pending = [] ∧ step s = .next s) ∨
    (∃ r rest i, s.pending = r :: rest ∧ decode r = .ok i ∧
      step s = .next { pending := rest, responses := s.responses ++ [answer i] }) ∨
    (∃ r rest why, s.pending = r :: rest ∧ decode r = .error why ∧ step s = .refused (.illFormedRequest why)) := by
  cases hp : s.pending with
  | nil => exact .inl ⟨rfl, by simp [step, takeRequest_nil hp, idle]⟩
  | cons r rest =>
    cases hd : decode r with
    | error why => exact .inr (.inr ⟨r, rest, why, rfl, hd, by simp [step, takeRequest_cons hp, hd, refuse]⟩)
    | ok i =>
      refine .inr (.inl ⟨r, rest, i, rfl, hd, ?_⟩)
      have hw : i.op.countLegal i.count = true := decode_wellFormed hd
      simp [step, takeRequest_cons hp, hd, exec_cases, respondCounted_legal hw, respond]

end Sys2Proof.Machine
end

