-- ==== Sys2Proof/Laws/PerInstr.lean ====
section
/-! SUPPORT. A fact of every instruction as syntax, one lemma for each constructor: its request carries nothing but what its
format reads, so every bit the operation ignores is 0 in it (spec/30_encoding.md rules R50, R58). -/

namespace Sys2Proof.Laws.EncodeReadsOnly

/-- Clearing the bits the operation ignores leaves the request of the instruction as it is. -/
def Statement (i : Instr) : Prop := (encode i).onlyRead = encode i

/-- A request whose parts are within what its operation reads is left as it is. -/
theorem onlyRead_of_within (o : Op) (A B : Bus) (n : Word32) (hA : A &&& o.format.readsA = A)
    (hB : B &&& o.format.readsB = B) (hn : o.format.readsN = true ∨ n = 0) :
    (⟨o.code, A, B, n⟩ : Request).onlyRead = ⟨o.code, A, B, n⟩ := by
  unfold Request.onlyRead
  simp only [ofCode_code, hA, hB]
  obtain h | h := hn
  · simp [h]
  · simp [h]

theorem limb_within (x : Limb) : Bus.ofLimb x &&& Bus.limbMask = Bus.ofLimb x := by
  apply BitVec.eq_of_getLsbD_eq
  intro i hi
  simp only [Bus.ofLimb, BitVec.getLsbD_and, BitVec.getLsbD_setWidth, limbMask_bit]
  by_cases h : i < 32
  · simp [h]
  · simp [BitVec.getLsbD_of_ge x i (by omega)]

theorem wide_within (a : Limb128) : Bus.ofWide a &&& Bus.wideMask = Bus.ofWide a := by
  apply BitVec.eq_of_getLsbD_eq
  intro i hi
  simp only [Bus.ofWide, BitVec.getLsbD_and, BitVec.getLsbD_setWidth, wideMask_bit]
  by_cases h : i < 128
  · simp [h]
  · simp [BitVec.getLsbD_of_ge a i (by omega)]

theorem zero_within (m : Bus) : (0 : Bus) &&& m = 0 := by simp

theorem addc (a b : Limb) (n : Word32) : Statement (.addc a b n) :=
  onlyRead_of_within .ADDC _ _ _ (limb_within a) (limb_within b) (.inl rfl)
theorem addf (a b : Limb128) : Statement (.addf a b) :=
  onlyRead_of_within .ADDF _ _ _ (wide_within a) (wide_within b) (.inr rfl)
theorem addhi (a b : Limb128) : Statement (.addhi a b) :=
  onlyRead_of_within .ADDHI _ _ _ (wide_within a) (wide_within b) (.inr rfl)
theorem neg (a : Limb128) : Statement (.neg a) :=
  onlyRead_of_within .NEG _ _ _ (wide_within a) (zero_within _) (.inr rfl)
theorem sub (a b : Limb128) : Statement (.sub a b) :=
  onlyRead_of_within .SUB _ _ _ (wide_within a) (wide_within b) (.inr rfl)
theorem mulf (a b : Limb128) : Statement (.mulf a b) :=
  onlyRead_of_within .MULF _ _ _ (wide_within a) (wide_within b) (.inr rfl)
theorem mullo (a b : Limb128) : Statement (.mullo a b) :=
  onlyRead_of_within .MULLO _ _ _ (wide_within a) (wide_within b) (.inr rfl)
theorem mulnh (a b : Limb128) : Statement (.mulnh a b) :=
  onlyRead_of_within .MULNH _ _ _ (wide_within a) (wide_within b) (.inr rfl)
theorem shbu (a : Limb128) (n : Word32) : Statement (.shbu a n) :=
  onlyRead_of_within .SHBU _ _ _ (wide_within a) (zero_within _) (.inl rfl)
theorem shbd (a : Limb128) (n : Word32) : Statement (.shbd a n) :=
  onlyRead_of_within .SHBD _ _ _ (wide_within a) (zero_within _) (.inl rfl)
theorem shlu (a : Limb128) (n : Word32) : Statement (.shlu a n) :=
  onlyRead_of_within .SHLU _ _ _ (wide_within a) (zero_within _) (.inl rfl)
theorem shld (a : Limb128) (n : Word32) : Statement (.shld a n) :=
  onlyRead_of_within .SHLD _ _ _ (wide_within a) (zero_within _) (.inl rfl)
theorem shu (a : Limb128) (n : Word32) : Statement (.shu a n) :=
  onlyRead_of_within .SHU _ _ _ (wide_within a) (zero_within _) (.inl rfl)
theorem shd (a : Limb128) (n : Word32) : Statement (.shd a n) :=
  onlyRead_of_within .SHD _ _ _ (wide_within a) (zero_within _) (.inl rfl)
theorem lzl (a : Limb128) : Statement (.lzl a) :=
  onlyRead_of_within .LZL _ _ _ (wide_within a) (zero_within _) (.inr rfl)
theorem hsb (x : Limb) : Statement (.hsb x) :=
  onlyRead_of_within .HSB _ _ _ (limb_within x) (zero_within _) (.inr rfl)
theorem cmp (a b : Limb128) : Statement (.cmp a b) :=
  onlyRead_of_within .CMP _ _ _ (wide_within a) (wide_within b) (.inr rfl)
theorem divmod (a b : Limb128) : Statement (.divmod a b) :=
  onlyRead_of_within .DIVMOD _ _ _ (wide_within a) (wide_within b) (.inr rfl)
theorem to16 (a : Limb128) : Statement (.to16 a) :=
  onlyRead_of_within .TO16 _ _ _ (wide_within a) (zero_within _) (.inr rfl)
theorem from16 (w : Limb128x16) : Statement (.from16 w) :=
  onlyRead_of_within .FROM16 _ _ _ (wide_within w) (zero_within _) (.inr rfl)
theorem eqexp (v1 v2 : ExtFloat) : Statement (.eqexp v1 v2) :=
  onlyRead_of_within .EQEXP _ _ _ (and_extMask _) (and_extMask _) (.inr rfl)
theorem norm (x : ExtFloat) : Statement (.norm x) :=
  onlyRead_of_within .NORM _ _ _ (and_extMask _) (zero_within _) (.inr rfl)

end Sys2Proof.Laws.EncodeReadsOnly
end

