-- ==== Sys2Proof/Tests/Slice0.lean ====
section
/-! SUPPORT. The model's own tests. Every expected value is a row of spec/95_test_vectors.md, named in the docstring, or is
read off the rule named there; the words are written out from the layout of spec/30_encoding.md rule R46. The theorems
named witness_ show states and operands that meet the hypotheses of a statement. -/

namespace Sys2Proof.Tests

set_option exponentiation.threshold 512

open Sys2Proof Sys2Proof.Machine Sys2Proof.Statement

/-- The request an outcome has answered, if it is a next state: the responses and what is left pending. -/
def given : Answer → Option (List Response × Nat)
  | .next t => some (t.responses, t.pending.length)
  | .fault _ => none
  | .refused _ => none

/-- The response of one transaction from the state after reset. -/
def one (i : Instr) : Option (List Response × Nat) := given (exec i State.reset)

/-- A state with one request pending. -/
def holding (r : Request) : State := presentFirst r State.reset

/-! ## Well-formedness: each check refuses an ill-formed term (95_test_vectors.md section 2.12) -/

theorem test_wf_addc_refused : Instr.wellFormed (.addc 0#32 0#32 0x00000002#32) = false := by decide
theorem test_wf_shbu_refused : Instr.wellFormed (.shbu 1#128 0x00000020#32) = false := by decide
theorem test_wf_shbd_refused : Instr.wellFormed (.shbd 1#128 0xFFFFFFFF#32) = false := by decide
theorem test_wf_shlu_refused : Instr.wellFormed (.shlu 1#128 0x00000005#32) = false := by decide
theorem test_wf_shld_refused : Instr.wellFormed (.shld 1#128 0x00000005#32) = false := by decide
theorem test_wf_shu_refused : Instr.wellFormed (.shu 1#128 0x00000081#32) = false := by decide
theorem test_wf_shd_refused : Instr.wellFormed (.shd 1#128 0x00000081#32) = false := by decide

theorem test_wf_addc_largest : Instr.wellFormed (.addc 0#32 0#32 0x00000001#32) = true := by decide
theorem test_wf_shbu_largest : Instr.wellFormed (.shbu 1#128 0x0000001F#32) = true := by decide
theorem test_wf_shbd_largest : Instr.wellFormed (.shbd 1#128 0x0000001F#32) = true := by decide
theorem test_wf_shlu_largest : Instr.wellFormed (.shlu 1#128 0x00000004#32) = true := by decide
theorem test_wf_shld_largest : Instr.wellFormed (.shld 1#128 0x00000004#32) = true := by decide
theorem test_wf_shu_largest : Instr.wellFormed (.shu 1#128 0x00000080#32) = true := by decide
theorem test_wf_shd_largest : Instr.wellFormed (.shd 1#128 0x00000080#32) = true := by decide

/-! ## Refused requests (95_test_vectors.md section 2.12) -/

theorem test_reserved_00 : Op.ofCode 0x00#8 = none := by decide
theorem test_reserved_15 : Op.ofCode 0x15#8 = none := by decide
theorem test_reserved_23 : Op.ofCode 0x23#8 = none := by decide
theorem test_reserved_36 : Op.ofCode 0x36#8 = none := by decide
theorem test_reserved_43 : Op.ofCode 0x43#8 = none := by decide
theorem test_reserved_51 : Op.ofCode 0x51#8 = none := by decide
theorem test_reserved_62 : Op.ofCode 0x62#8 = none := by decide
theorem test_reserved_72 : Op.ofCode 0x72#8 = none := by decide
theorem test_reserved_80 : Op.ofCode 0x80#8 = none := by decide
theorem test_reserved_FF : Op.ofCode 0xFF#8 = none := by decide

theorem test_reserved_request : decode ⟨0x15#8, 0, 0, 0⟩ = .error (.reservedOp 0x15#8) := by rfl
theorem test_addc_count : decode ⟨0x10#8, 0, 0, 2⟩ = .error (.countOutOfRange .ADDC 2) := by rfl
theorem test_shld_count : decode ⟨0x33#8, 0, 0, 5⟩ = .error (.countOutOfRange .SHLD 5) := by rfl
theorem test_shd_count : decode ⟨0x35#8, 0, 0, 129⟩ = .error (.countOutOfRange .SHD 129) := by rfl
theorem test_step_refuses : step (holding ⟨0xFF#8, 0, 0, 0⟩) = .refused (.illFormedRequest (.reservedOp 0xFF#8)) := by rfl

/-! ## Decoding: one word written out for every operation. The bits a format ignores are set in most of them (rule R50);
the five words of 95_test_vectors.md section 2.13 stand in the statement SpecWordsDecode. -/

theorem test_decode_addc :
    decodeWord 0x00000001DEADBEEFCAFEF00D00000000000000000000ABCD9ABCDEF0DEADBEEFCAFEF00D0000000000000000FFFF00001234567810#424
      = .ok (.addc 0x12345678#32 0x9ABCDEF0#32 1#32) := by rfl
theorem test_decode_addf :
    decodeWord 0xFFFFFFFFDEADBEEFCAFEF00D11111111222222223333333344444444DEADBEEFCAFEF00D123456789ABCDEF00FEDCBA98765432111#424
      = .ok (.addf 0x123456789ABCDEF00FEDCBA987654321#128 0x11111111222222223333333344444444#128) := by rfl
theorem test_decode_addhi :
    decodeWord 0x00000007DEADBEEFCAFEF00D11111111222222223333333344444444DEADBEEFCAFEF00D123456789ABCDEF00FEDCBA98765432112#424
      = .ok (.addhi 0x123456789ABCDEF00FEDCBA987654321#128 0x11111111222222223333333344444444#128) := by rfl
theorem test_decode_neg :
    decodeWord 0x000000090000000000000000123456789ABCDEF00FEDCBA987654321DEADBEEFCAFEF00D1111111122222222333333334444444413#424
      = .ok (.neg 0x11111111222222223333333344444444#128) := by rfl
theorem test_decode_sub :
    decodeWord 0x00000000DEADBEEFCAFEF00D111111112222222233333333444444440000000000000000123456789ABCDEF00FEDCBA98765432114#424
      = .ok (.sub 0x123456789ABCDEF00FEDCBA987654321#128 0x11111111222222223333333344444444#128) := by rfl
theorem test_decode_mulf :
    decodeWord 0x00000000000000000000000011111111222222223333333344444444DEADBEEFCAFEF00D123456789ABCDEF00FEDCBA98765432120#424
      = .ok (.mulf 0x123456789ABCDEF00FEDCBA987654321#128 0x11111111222222223333333344444444#128) := by rfl
theorem test_decode_mullo :
    decodeWord 0x00000002DEADBEEFCAFEF00D123456789ABCDEF00FEDCBA98765432100000000000000001111111122222222333333334444444421#424
      = .ok (.mullo 0x11111111222222223333333344444444#128 0x123456789ABCDEF00FEDCBA987654321#128) := by rfl
theorem test_decode_mulnh :
    decodeWord 0x000000C8DEADBEEFCAFEF00D111111112222222233333333444444440000000000000000123456789ABCDEF00FEDCBA98765432122#424
      = .ok (.mulnh 0x123456789ABCDEF00FEDCBA987654321#128 0x11111111222222223333333344444444#128) := by rfl
theorem test_decode_shbu :
    decodeWord 0x0000001F000000000000000011111111222222223333333344444444DEADBEEFCAFEF00D123456789ABCDEF00FEDCBA98765432130#424
      = .ok (.shbu 0x123456789ABCDEF00FEDCBA987654321#128 31#32) := by rfl
theorem test_decode_shbd :
    decodeWord 0x00000010000000000000000011111111222222223333333344444444DEADBEEFCAFEF00D123456789ABCDEF00FEDCBA98765432131#424
      = .ok (.shbd 0x123456789ABCDEF00FEDCBA987654321#128 16#32) := by rfl
theorem test_decode_shlu :
    decodeWord 0x00000004000000000000000011111111222222223333333344444444DEADBEEFCAFEF00D123456789ABCDEF00FEDCBA98765432132#424
      = .ok (.shlu 0x123456789ABCDEF00FEDCBA987654321#128 4#32) := by rfl
theorem test_decode_shld :
    decodeWord 0x00000001000000000000000011111111222222223333333344444444DEADBEEFCAFEF00D123456789ABCDEF00FEDCBA98765432133#424
      = .ok (.shld 0x123456789ABCDEF00FEDCBA987654321#128 1#32) := by rfl
theorem test_decode_shu :
    decodeWord 0x00000080000000000000000011111111222222223333333344444444DEADBEEFCAFEF00D123456789ABCDEF00FEDCBA98765432134#424
      = .ok (.shu 0x123456789ABCDEF00FEDCBA987654321#128 128#32) := by rfl
theorem test_decode_shd :
    decodeWord 0x00000064000000000000000011111111222222223333333344444444DEADBEEFCAFEF00D123456789ABCDEF00FEDCBA98765432135#424
      = .ok (.shd 0x123456789ABCDEF00FEDCBA987654321#128 100#32) := by rfl
theorem test_decode_lzl :
    decodeWord 0x00000005000000000000000011111111222222223333333344444444DEADBEEFCAFEF00D123456789ABCDEF00FEDCBA98765432140#424
      = .ok (.lzl 0x123456789ABCDEF00FEDCBA987654321#128) := by rfl
theorem test_decode_hsb :
    decodeWord 0x00000005000000000000000011111111222222223333333344444444DEADBEEFCAFEF00D123456789ABCDEF00FEDCBA98765432141#424
      = .ok (.hsb 0x87654321#32) := by rfl
theorem test_decode_cmp :
    decodeWord 0x00000005DEADBEEFCAFEF00D11111111222222223333333344444444DEADBEEFCAFEF00D123456789ABCDEF00FEDCBA98765432142#424
      = .ok (.cmp 0x123456789ABCDEF00FEDCBA987654321#128 0x11111111222222223333333344444444#128) := by rfl
theorem test_decode_divmod :
    decodeWord 0x00000005DEADBEEFCAFEF00D11111111222222223333333344444444DEADBEEFCAFEF00D123456789ABCDEF00FEDCBA98765432150#424
      = .ok (.divmod 0x123456789ABCDEF00FEDCBA987654321#128 0x11111111222222223333333344444444#128) := by rfl
theorem test_decode_to16 :
    decodeWord 0x00000005000000000000000011111111222222223333333344444444DEADBEEFCAFEF00D123456789ABCDEF00FEDCBA98765432160#424
      = .ok (.to16 0x123456789ABCDEF00FEDCBA987654321#128) := by rfl
theorem test_decode_from16 :
    decodeWord 0x00000005000000000000000011111111222222223333333344444444DEADBEEFCAFEF00D123456789ABCDEF00FEDCBA98765432161#424
      = .ok (.from16 0x123456789ABCDEF00FEDCBA987654321#128) := by rfl
theorem test_decode_eqexp :
    decodeWord 0x000000058000002100000009FEDCBA98765432100123456789ABCDEF8000000000000002123456789ABCDEF00FEDCBA98765432170#424
      = .ok (.eqexp ⟨0x123456789ABCDEF00FEDCBA987654321#128, 0x00000002#32, 0x80000000#32⟩ ⟨0xFEDCBA98765432100123456789ABCDEF#128, 0x00000009#32, 0x80000021#32⟩) := by rfl
theorem test_decode_norm :
    decodeWord 0x00000005DEADBEEFCAFEF00D111111112222222233333333444444448000000000000002123456789ABCDEF00FEDCBA98765432171#424
      = .ok (.norm ⟨0x123456789ABCDEF00FEDCBA987654321#128, 0x00000002#32, 0x80000000#32⟩) := by rfl

/-! ## One step for each operation, from the rows of 95_test_vectors.md section 2 -/

/-- 2.1: the carry-in causes the overflow -/
theorem test_addc_carry :
    one (.addc 0xFFFFFFFF#32 0#32 1#32)
      = some ([⟨0, 0, 0, true⟩], 0) := by decide
/-- 2.1: sum 2^33 - 1 -/
theorem test_addc_largest :
    one (.addc 0xFFFFFFFF#32 0xFFFFFFFF#32 1#32)
      = some ([⟨0x0000000000000000000000000000000000000000FFFFFFFF#192, 0, 0, true⟩], 0) := by decide
/-- 2.2: the carry ripples through all four limbs -/
theorem test_addf_ripple :
    one (.addf 0xFFFFFFFFFFFFFFFFFFFFFFFFFFFFFFFF#128 1#128)
      = some ([⟨0, 0, 0, true⟩], 0) := by decide
/-- 2.2: the carry ripples through two limbs, stops -/
theorem test_addf_two_limbs :
    one (.addf 0x0000000100000000FFFFFFFFFFFFFFFF#128 1#128)
      = some ([⟨0x000000000000000000000001000000010000000000000000#192, 0, 0, false⟩], 0) := by decide
/-- 2.2: overflow; the dropped limb is non-zero -/
theorem test_addhi_dropped_limb :
    one (.addhi 0xFFFFFFFF00000000AAAAAAAA12345678#128 0x00000001000000005555555687654321#128)
      = some ([⟨0x000000000000000000000001000000000000000100000000#192, 0, 0, true⟩], 0) := by decide
/-- 2.2: largest without carry -/
theorem test_addhi_no_carry :
    one (.addhi 0x80000000000000000000000000000000#128 0x7FFFFFFFFFFFFFFFFFFFFFFFFFFFFFFF#128)
      = some ([⟨0x0000000000000000FFFFFFFFFFFFFFFFFFFFFFFFFFFFFFFF#192, 0, 0, false⟩], 0) := by decide
/-- 2.3 -/
theorem test_neg_general :
    one (.neg 0x123456789ABCDEF00FEDCBA987654321#128)
      = some ([⟨0x0000000000000000EDCBA9876543210FF0123456789ABCDF#192, 0, 0, false⟩], 0) := by decide
/-- 2.3: zero is its own negation -/
theorem test_neg_zero :
    one (.neg 0#128)
      = some ([⟨0, 0, 0, false⟩], 0) := by decide
/-- 2.4: borrow through all limbs -/
theorem test_sub_borrow :
    one (.sub 0#128 1#128)
      = some ([⟨0x0000000000000000FFFFFFFFFFFFFFFFFFFFFFFFFFFFFFFF#192, 0, 0, false⟩], 0) := by decide
/-- 2.4 -/
theorem test_sub_general :
    one (.sub 0x123456789ABCDEF00FEDCBA987654321#128 0x11111111222222223333333344444444#128)
      = some ([⟨0x000000000000000001234567789ABCCDDCBA98764320FEDD#192, 0, 0, false⟩], 0) := by decide
/-- 2.5 -/
theorem test_mulf_general :
    one (.mulf 0x123456789ABCDEF00FEDCBA987654321#128 0x11111111222222223333333344444444#128)
      = some ([⟨0x00000000000000000136B06E71EDF27E72FDCCDF159E26AE#192, 0x00000000000000000F8CB485E0D32BEF9E60F04C757E98C4#192, 0, false⟩], 0) := by decide
/-- 2.5 -/
theorem test_mullo_general :
    one (.mullo 0x123456789ABCDEF00FEDCBA987654321#128 0x11111111222222223333333344444444#128)
      = some ([⟨0x00000000000000000F8CB485E0D32BEF9E60F04C757E98C4#192, 0, 0, false⟩], 0) := by decide
set_option maxRecDepth 2000 in
/-- 2.5 -/
theorem test_mulnh_general :
    one (.mulnh 0x123456789ABCDEF00FEDCBA987654321#128 0x11111111222222223333333344444444#128)
      = some ([⟨0x00000000000000009B583738F6F93F397EE66F8ACF135707#192, 0, 0x00000079#32, false⟩], 0) := by decide
set_option maxRecDepth 2000 in
/-- 2.5: the shortest product, S = -127 -/
theorem test_mulnh_shortest :
    one (.mulnh 1#128 1#128)
      = some ([⟨0x000000000000000080000000000000000000000000000000#192, 0, 0xFFFFFF81#32, false⟩], 0) := by decide
/-- 2.6 -/
theorem test_shbu_31 :
    one (.shbu 0x123456789ABCDEF00FEDCBA987654321#128 31#32)
      = some ([⟨0x00000000000000004D5E6F7807F6E5D4C3B2A19080000000#192, 0, 0, false⟩], 0) := by decide
/-- 2.6 -/
theorem test_shbd_31 :
    one (.shbd 0x123456789ABCDEF00FEDCBA987654321#128 31#32)
      = some ([⟨0x0000000000000000000000002468ACF13579BDE01FDB9753#192, 0, 0, false⟩], 0) := by decide
/-- 2.6 -/
theorem test_shlu_3 :
    one (.shlu 0x123456789ABCDEF00FEDCBA987654321#128 3#32)
      = some ([⟨0x000000000000000087654321000000000000000000000000#192, 0, 0, false⟩], 0) := by decide
/-- 2.6 -/
theorem test_shld_3 :
    one (.shld 0x123456789ABCDEF00FEDCBA987654321#128 3#32)
      = some ([⟨0x000000000000000000000000000000000000000012345678#192, 0, 0, false⟩], 0) := by decide
/-- 2.6 -/
theorem test_shu_33 :
    one (.shu 0x123456789ABCDEF00FEDCBA987654321#128 33#32)
      = some ([⟨0x00000000000000003579BDE01FDB97530ECA864200000000#192, 0, 0, false⟩], 0) := by decide
/-- 2.6: shift by the width -/
theorem test_shu_128 :
    one (.shu 0x123456789ABCDEF00FEDCBA987654321#128 128#32)
      = some ([⟨0, 0, 0, false⟩], 0) := by decide
/-- 2.6 -/
theorem test_shd_100 :
    one (.shd 0x123456789ABCDEF00FEDCBA987654321#128 100#32)
      = some ([⟨0x000000000000000000000000000000000000000001234567#192, 0, 0, false⟩], 0) := by decide
/-- 2.6: shift by the width -/
theorem test_shd_128 :
    one (.shd 0x123456789ABCDEF00FEDCBA987654321#128 128#32)
      = some ([⟨0, 0, 0, false⟩], 0) := by decide
/-- 2.7, rule R126: 4 for zero -/
theorem test_lzl_zero :
    one (.lzl 0#128)
      = some ([⟨0, 0, 0x00000004#32, false⟩], 0) := by decide
/-- P5: two zero limbs -/
theorem test_lzl_two :
    one (.lzl 0x00000000000000000001234500000000#128)
      = some ([⟨0, 0, 0x00000002#32, false⟩], 0) := by decide
/-- rule R127: -1 for zero -/
theorem test_hsb_zero :
    one (.hsb 0#32)
      = some ([⟨0, 0, 0xFFFFFFFF#32, false⟩], 0) := by decide
/-- P5 -/
theorem test_hsb_p5 :
    one (.hsb 0x00012345#32)
      = some ([⟨0, 0, 0x00000010#32, false⟩], 0) := by decide
/-- 2.7: a signed comparison would say less -/
theorem test_cmp_unsigned :
    one (.cmp 0x80000000000000000000000000000000#128 0x7FFFFFFFFFFFFFFFFFFFFFFFFFFFFFFF#128)
      = some ([⟨0, 0, 0x00000001#32, false⟩], 0) := by decide
/-- 2.7: differ in limb 0 only -/
theorem test_cmp_limb0 :
    one (.cmp 0x123456789ABCDEF00FEDCBA987654321#128 0x123456789ABCDEF00FEDCBA987654322#128)
      = some ([⟨0, 0, 0xFFFFFFFF#32, false⟩], 0) := by decide
/-- 2.8: two-digit divisor -/
theorem test_divmod_general :
    one (.divmod 0x123456789ABCDEF00FEDCBA987654321#128 0x9ABCDEF1#128)
      = some ([⟨0x0000000000000000000000001E1E1E214236EBD7F13E14E9#192, 0x000000000000000000000000000000000000000010B585C8#192, 0, false⟩], 0) := by decide
/-- 2.8: x / 0, the sentinel -/
theorem test_divmod_zero :
    one (.divmod 5#128 0#128)
      = some ([⟨0x0000000000000000FFFFFFFFFFFFFFFFFFFFFFFFFFFFFFFF#192, 0x0000000000000000FFFFFFFFFFFFFFFFFFFFFFFFFFFFFFFF#192, 0, true⟩], 0) := by decide
/-- 2.9 -/
theorem test_to16_general :
    one (.to16 0x123456789ABCDEF00FEDCBA987654321#128)
      = some ([⟨0x0000000000000000123456789ABCDEF00FEDCBA987654321#192, 0, 0, false⟩], 0) := by decide
/-- 2.9 -/
theorem test_from16_general :
    one (.from16 0x123456789ABCDEF00FEDCBA987654321#128)
      = some ([⟨0x0000000000000000123456789ABCDEF00FEDCBA987654321#192, 0, 0, false⟩], 0) := by decide
/-- 2.10 row 1 -/
theorem test_eqexp_both_zero :
    one (.eqexp ⟨0x00000000000000000000000000000000#128, 0x00000000#32, 0x12345678#32⟩ ⟨0x00000000000000000000000000000000#128, 0x00000001#32, 0x9ABCDEF0#32⟩)
      = some ([⟨0x800000000000000000000000000000000000000000000000#192, 0x800000000000000100000000000000000000000000000000#192, 0, false⟩], 0) := by decide
/-- 2.10 row 8 -/
theorem test_eqexp_distance_33 :
    one (.eqexp ⟨0x123456789ABCDEF00FEDCBA987654321#128, 0x00000002#32, 0x80000000#32⟩ ⟨0xFEDCBA98765432100123456789ABCDEF#128, 0x00000009#32, 0x80000021#32⟩)
      = some ([⟨0x800000210000000200000000091A2B3C4D5E6F7807F6E5D4#192, 0x8000002100000009FEDCBA98765432100123456789ABCDEF#192, 0, false⟩], 0) := by decide
/-- 2.11 -/
theorem test_norm_shift_79 :
    one (.norm ⟨0x00000000000000000001234500000000#128, 0x00000002#32, 0x80000000#32⟩)
      = some ([⟨0x7FFFFFB10000000291A28000000000000000000000000000#192, 0, 0, false⟩], 0) := by decide
/-- 2.11 -/
theorem test_norm_exponent_wraps :
    one (.norm ⟨0x00000000000000000000000000000001#128, 0x00000000#32, 0x00000010#32⟩)
      = some ([⟨0xFFFFFF910000000080000000000000000000000000000000#192, 0, 0, false⟩], 0) := by decide

/-- 2.9: the digits of the re-encoded value, digit 0 first. -/
theorem test_to16_digits : Reference.digitsOf (to16 0x123456789ABCDEF00FEDCBA987654321#128)
    = [0x4321, 0x8765, 0xCBA9, 0x0FED, 0xDEF0, 0x9ABC, 0x5678, 0x1234] := by decide

/-- A count out of range is refused by the meaning too (rule R55). -/
theorem test_shlu_refuses :
    exec (.shlu 1#128 5#32) State.reset = .refused (.illFormedRequest (.countOutOfRange .SHLU 5#32)) := by rfl

/-! ## The machine -/

/-- The host's two entry points on a word of the opcode table: 8 bits, the operands zero. -/
theorem test_table_word_mulf : decodeTableWord 8 0x20 = some (.mulf 0#128 0#128) := by rfl
theorem test_table_word_divmod : decodeTableWord 8 0x50 = some (.divmod 0#128 0#128) := by rfl
theorem test_fetch_word_divmod : given (step (State.reset.withFetchWord 8 0x50))
    = some ([⟨0x0000000000000000FFFFFFFFFFFFFFFFFFFFFFFFFFFFFFFF#192, 0x0000000000000000FFFFFFFFFFFFFFFFFFFFFFFFFFFFFFFF#192, 0, true⟩], 0) := by decide

/-- The flat response of 95_test_vectors.md section 2.13, CMP A=0 B=1. -/
theorem test_response_word :
    (answer (.cmp 0#128 1#128)).toWord = 0x0FFFFFFFF000000000000000000000000000000000000000000000000000000000000000000000000000000000000000000000000#417 := by decide

/-- P3 of section 4 as a script: EQEXP, ADDHI, NORM with the client's exponent and flags. -/
def scriptP3 : List Script.Line :=
  [⟨.EQEXP, [.lit 0x8000000200000000C0000000000000000000000000000000#192, .lit 0x8000000300000000A0000000000000000000000000000000#192]⟩,
   ⟨.ADDHI, [.X 0, .Y 0]⟩,
   ⟨.NORM, [.ext (.mant (.X 1)) (.lit 0) (.lit 0x80000023#192)]⟩]

/-- The last response of P3: 8.0. -/
theorem test_script_p3 : (Script.run scriptP3 State.reset).map (fun t => (t.responses.map (·.X)).getLast?)
    = some (some 0x800000040000000080000000000000000000000000000000#192) := by decide

/-! ## The client operations and the images (95_test_vectors.md sections 2.13, 3.1, 3.2) -/

def three : ExtFloat := ⟨0xC0000000000000000000000000000000#128, 0x00000000#32, 0x80000002#32⟩
def five : ExtFloat := ⟨0xA0000000000000000000000000000000#128, 0x00000000#32, 0x80000003#32⟩

/-- 3.2: 3 + 5 = 8, by the overflow of ADDHI. -/
theorem test_client_add : Client.add defaults three five = ⟨0x80000000000000000000000000000000#128, 0x00000000#32, 0x80000004#32⟩ := by decide
/-- 3.2: 3 - 5 = -2. -/
theorem test_client_subtract : Client.subtract defaults three five = ⟨0x80000000000000000000000000000000#128, 0x00000001#32, 0x80000002#32⟩ := by decide
/-- 3.2: 3 * 5 = 15. -/
theorem test_client_multiply : Client.multiply defaults three five = ⟨0xF0000000000000000000000000000000#128, 0x00000000#32, 0x80000004#32⟩ := by rfl
/-- 3.2: the sentinel; the divisor's flags (bit 3, bit 0) are kept, the signs cancel. -/
theorem test_client_divide_zero :
    Client.divide defaults ⟨0xC0000000000000000000000000000000#128, 0x00000001#32, 0x80000002#32⟩ ⟨0x00000000000000000000000000000000#128, 0x00000009#32, 0x00000000#32⟩
      = ⟨0xFFFFFFFFFFFFFFFFFFFFFFFFFFFFFFFF#128, 0x0000000C#32, 0xFFFEFFFF#32⟩ := by decide
/-- 3.2: compare is sign-blind. -/
theorem test_client_compare : Client.compare defaults ⟨0xC0000000000000000000000000000000#128, 0x00000001#32, 0x80000002#32⟩ ⟨0x80000000000000000000000000000000#128, 0x00000000#32, 0x80000002#32⟩ = 1 := by
  decide
/-- 1.1: -289.80362 from and to binary32. -/
theorem test_client_from_f32 :
    Client.f32ToExt defaults 0xC390E6DD#32 = ⟨0x90E6DD00000000000000000000000000#128, 0x00000001#32, 0x80000009#32⟩ := by decide
theorem test_client_to_f32 :
    Client.extToF32 defaults ⟨0x90E6DD00000000000000000000000000#128, 0x00000001#32, 0x80000009#32⟩ = 0xC390E6DD#32 := by decide

/-- Rule R202: the characters of a decimal number, and characters that write none. -/
theorem test_decimal_parse : Decimal.parse ['-', '1', '.', '5', 'e', '-', '2'] = some ⟨true, 15, -3⟩ := by decide
theorem test_decimal_none : Decimal.parse ['1', '.', 'x'] = none ∧ Decimal.parse ['.'] = none := by decide
/-- Rules R202 and R14: two decimals that need no rounding, 3 (the operand of 3.2) and -0.5. -/
theorem test_decimal_three : Client.decimalStringToExt ['3'] = three := by rfl
theorem test_decimal_half :
    Client.decimalStringToExt ['-', '0', '.', '5'] = ⟨0x80000000000000000000000000000000#128, 0x00000001#32, 0x80000000#32⟩ := by rfl

/-- 2^-150, half the smallest positive binary32 number. -/
def tiny : ExtFloat := ⟨0x80000000000000000000000000000000#128, 0x00000000#32, 0x7FFFFF6B#32⟩
/-- Rule R194, 93 U12: a value too small for the format gives exactly 0.0, and the seed sets bit 3, not bit 2 (R226). -/
theorem test_tiny_is_zero : Client.extToF32 defaults tiny = 0 := by decide
theorem test_tiny_seed :
    (Client.seed defaults tiny).flags.getLsbD 3 = true ∧ (Client.seed defaults tiny).flags.getLsbD 2 = false := by
  have h : F32.isZero (Client.extToF32 defaults tiny) = true := by decide
  simp only [Client.seed, h, if_true, BitVec.getLsbD_or, Flag.withoutErrors_error _ 2 (.inr (.inl rfl))]
  simp [Flag.redPrec]

/-- 2.13: the 24-byte image. -/
theorem test_image :
    (Image.ofExt ⟨0x90E6DD00000000000000000000000000#128, 0x00000001#32, 0x80000009#32⟩).map (·.toNat)
      = [0, 0, 0, 0, 0, 0, 0, 0, 0, 0, 0, 0] ++ [0, 0xDD, 0xE6, 0x90, 1, 0, 0, 0, 9, 0, 0, 0x80] := by decide

/-! ## Witnesses: states and operands that meet the hypotheses of the statements, clause by clause, at boundary values -/

/-- A request with code `c` and count `n`, both operand fields full of bits. -/
def req (c : OpCode) (n : Word32) : Request :=
  ⟨c, 0xDEADBEEFCAFEF00D123456789ABCDEF00FEDCBA987654321#192, 0xDEADBEEFCAFEF00D11111111222222223333333344444444#192, n⟩

/-- The hypotheses of `RunsAs c legal`, met by the state that holds `req c n`. -/
def Meets (c : OpCode) (n : Word32) (legal : Word32 → Prop) : Prop :=
  (holding (req c n)).pending = req c n :: [] ∧ (req c n).op = c ∧ legal (req c n).N

theorem meets (c : OpCode) (n : Word32) (legal : Word32 → Prop) (h : legal n) : Meets c n legal := ⟨rfl, rfl, h⟩

theorem witness_AddcGivesSumAndCarry :
    (0#32).toNat ≤ 1 ∧ (1#32).toNat ≤ 1 ∧ 1 < (2#32).toNat ∧ Meets 0x10#8 1#32 (fun n => n.toNat ≤ 1) :=
  ⟨by decide, by decide, by decide, meets _ _ _ (by decide)⟩
theorem witness_AddfGivesSumAndCarry : Meets 0x11#8 7#32 AnyCount := meets _ _ _ trivial
theorem witness_AddhiKeepsHighPart :
    2 ^ 128 ≤ (BitVec.twoPow 128 127).toNat + (BitVec.twoPow 128 127).toNat ∧
    (BitVec.twoPow 128 127).toNat + (BitVec.twoPow 128 127 - 1#128).toNat < 2 ^ 128 ∧ Meets 0x12#8 7#32 AnyCount :=
  ⟨by decide, by decide, meets _ _ _ trivial⟩
theorem witness_NegGivesTwosComplement : Meets 0x13#8 7#32 AnyCount := meets _ _ _ trivial
theorem witness_SubWrapsAround : Meets 0x14#8 7#32 AnyCount := meets _ _ _ trivial
theorem witness_AdderFamilyLaws : (answer (.addhi (BitVec.allOnes 128) 1#128)).C = true := by decide
theorem witness_MulfGivesFullProduct : Meets 0x20#8 7#32 AnyCount := meets _ _ _ trivial
theorem witness_MulloGivesLowHalf : Meets 0x21#8 7#32 AnyCount := meets _ _ _ trivial
theorem witness_MulnhNormalisesProduct :
    (0#128).toNat * (BitVec.allOnes 128).toNat = 0 ∧ (1#128).toNat * (1#128).toNat ≠ 0 ∧
    (BitVec.allOnes 128).toNat * (BitVec.allOnes 128).toNat ≠ 0 ∧ Meets 0x22#8 7#32 AnyCount :=
  ⟨by decide, by decide, by decide, meets _ _ _ trivial⟩
theorem witness_LatticeComputesProduct :
    1 ∈ Reference.lattice 1#128 1#128 ∧ 1 ∈ Reference.latticeSums 1#128 1#128 ∧ 0xFFFF < 2 ^ 16 := by decide
theorem witness_BitShiftsGiveProductAndQuotient :
    (0#32).toNat ≤ 31 ∧ (31#32).toNat ≤ 31 ∧ 31 < (32#32).toNat ∧ Meets 0x30#8 31#32 (fun n => n.toNat ≤ 31) ∧
    Meets 0x31#8 31#32 (fun n => n.toNat ≤ 31) :=
  ⟨by decide, by decide, by decide, meets _ _ _ (by decide), meets _ _ _ (by decide)⟩
theorem witness_LimbViewsAreBitShifts : 0 ≤ 31 ∧ 1 ≤ 31 ∧ 31 ≤ 31 := by decide
theorem witness_LimbShiftsMoveLimbs :
    (0#32).toNat ≤ 4 ∧ (4#32).toNat ≤ 4 ∧ 4 < (5#32).toNat ∧ 0 < 4 ∧ 3 < 4 ∧
    Meets 0x32#8 4#32 (fun n => n.toNat ≤ 4) ∧ Meets 0x33#8 4#32 (fun n => n.toNat ≤ 4) :=
  ⟨by decide, by decide, by decide, by decide, by decide, meets _ _ _ (by decide), meets _ _ _ (by decide)⟩
theorem witness_WideShiftsGiveProductAndQuotient :
    (0#32).toNat ≤ 128 ∧ (128#32).toNat ≤ 128 ∧ 128 < (129#32).toNat ∧
    Meets 0x34#8 128#32 (fun n => n.toNat ≤ 128) ∧ Meets 0x35#8 128#32 (fun n => n.toNat ≤ 128) :=
  ⟨by decide, by decide, by decide, meets _ _ _ (by decide), meets _ _ _ (by decide)⟩
theorem witness_ShiftsCompose : 0 ≤ 128 ∧ 128 ≤ 128 ∧ 95 + 33 ≤ 128 := by decide
theorem witness_LzlCountsLeadingZeroLimbs : Meets 0x40#8 7#32 AnyCount := meets _ _ _ trivial
theorem witness_LeadingZeroLimbsBoundValue :
    leadingZeroLimbs 0#128 = 4 ∧ leadingZeroLimbs 1#128 = 3 ∧ leadingZeroLimbs (BitVec.allOnes 128) = 0 := by decide
theorem witness_HsbGivesBitIndex : (1#32 ≠ 0 ∧ 0x80000000#32 ≠ 0) ∧ Meets 0x41#8 7#32 AnyCount :=
  ⟨by decide, meets _ _ _ trivial⟩
theorem witness_CmpOrdersValues : Meets 0x42#8 7#32 AnyCount := meets _ _ _ trivial
theorem witness_LeadingZeroBitsNormalise : (1#128 ≠ 0 ∧ 127 ≤ 127) ∧ leadingZeroBits 1#128 = 127 := by decide
theorem witness_DivmodGivesQuotientAndRemainder : (1#128).toNat ≠ 0 ∧ Meets 0x50#8 7#32 AnyCount :=
  ⟨by decide, meets _ _ _ trivial⟩
theorem witness_DivmodRecomposesDividend : (1#128 : Limb128) ≠ 0 := by decide
theorem witness_LongDivisionComputesDivmod : (0x9ABCDEF1#128 : Limb128) ≠ 0 := by decide
theorem witness_ReencoderSplitsAndJoins : (0 < 4 ∧ 3 < 4) ∧ Meets 0x60#8 7#32 AnyCount ∧ Meets 0x61#8 7#32 AnyCount :=
  ⟨by decide, meets _ _ _ trivial, meets _ _ _ trivial⟩

/-- 2^127, no flags, at the given exponent. -/
def atExp (e : Word32) : ExtFloat := ⟨BitVec.twoPow 128 127, 0, e⟩
/-- A zero mantissa at the given exponent. -/
def zeroAt (e : Word32) : ExtFloat := ⟨0, 0, e⟩

theorem witness_EqexpAlignsToLargerExponent :
    (zeroAt 7#32).mant = 0 ∧ (atExp 0x80000080#32).mant ≠ 0 ∧ (atExp 0x80000000#32).mant ≠ 0 ∧ Meets 0x70#8 7#32 AnyCount :=
  ⟨by decide, by decide, by decide, meets _ _ _ trivial⟩
/-- Distance exactly 128, the last that does not depend on the parameter, and equal exponents. -/
theorem witness_EqexpHoldsForEveryFarValue :
    (atExp 0x80000080#32).mant ≠ 0 ∧ (atExp 0x80000000#32).exp.toNat ≤ (atExp 0x80000080#32).exp.toNat ∧
    (atExp 0x80000080#32).exp.toNat ≤ (atExp 0x80000000#32).exp.toNat + 128 := by decide
theorem witness_NormShiftsToTopBit : (zeroAt 7#32).mant = 0 ∧ (atExp 0#32).mant ≠ 0 ∧ Meets 0x71#8 7#32 AnyCount :=
  ⟨by decide, by decide, meets _ _ _ trivial⟩
/-- The smallest exponent from which a shift by 127 does not wrap. -/
theorem witness_NormKeepsValue : leadingZeroBits 1#128 ≤ (⟨1#128, 0, 127#32⟩ : ExtFloat).exp.toNat := by decide
theorem witness_DecodeEncodeAgree : (Instr.shu 1#128 128#32).wellFormed = true := by decide

/-- A well-formed request, and one that differs from it in ignored bits of A, B and N only. -/
theorem witness_IgnoredBitsDoNotMatter :
    (req 0x13#8 7#32).onlyRead = (⟨0x13#8, 0x123456789ABCDEF00FEDCBA987654321#192, 0, 0⟩ : Request).onlyRead ∧
    req 0x13#8 7#32 ≠ ⟨0x13#8, 0x123456789ABCDEF00FEDCBA987654321#192, 0, 0⟩ ∧
    WellFormedRequest (req 0x13#8 7#32) :=
  ⟨by decide, by decide, _, rfl⟩
theorem witness_UndrivenBitsAreZero : ∃ t, exec (.neg 1#128) State.reset = .next t := ⟨_, rfl⟩
theorem witness_EveryWellFormedInstrIsAnswered : (Instr.addc 0#32 0#32 1#32).wellFormed = true := by decide
theorem witness_StepRunsDecodedInstr :
    ((holding (req 0x13#8 7#32)).pending = req 0x13#8 7#32 :: [] ∧
      decode (req 0x13#8 7#32) = .ok (.neg 0x123456789ABCDEF00FEDCBA987654321#128)) ∧
    ((holding (req 0x15#8 7#32)).pending = req 0x15#8 7#32 :: [] ∧
      decode (req 0x15#8 7#32) = .error (.reservedOp 0x15#8)) ∧ State.reset.pending = [] :=
  ⟨⟨rfl, rfl⟩, ⟨rfl, rfl⟩, rfl⟩
theorem witness_ResetIsIdle : decode (req 0x13#8 7#32) = .ok (.neg 0x123456789ABCDEF00FEDCBA987654321#128) := rfl

/-- A state in the middle of a run: one response given, one request pending. -/
def midway : State := ⟨[req 0x13#8 7#32], [answer (.neg 1#128)]⟩

theorem midway_inv : midway.Inv := by
  intro r hr
  rw [List.mem_singleton.mp hr]
  exact ⟨.neg 1#128, rfl, rfl, by decide, by decide, by decide, by decide⟩
theorem midway_safe : midway.Safe := by
  intro r hr
  rw [List.mem_singleton.mp hr]
  exact ⟨_, rfl⟩

theorem witness_StepKeepsInvariant : midway.Inv ∧ ∃ t, step midway = .next t := ⟨midway_inv, _, rfl⟩
theorem witness_SafeStatesMakeProgress : midway.Safe ∧ midway.pending ≠ [] := ⟨midway_safe, by decide⟩
theorem witness_StepConservesTransactions : ∃ t, step midway = .next t := ⟨_, rfl⟩
theorem witness_RunAnswersEveryRequestInOrder : midway.Safe ∧ midway.pending.length = 1 := ⟨midway_safe, rfl⟩
theorem witness_OrderOfTransactionsDoesNotMatter :
    [req 0x13#8 7#32, req 0x50#8 0#32].Perm [req 0x50#8 0#32, req 0x13#8 7#32] ∧
    WellFormedRequest (req 0x13#8 7#32) ∧ WellFormedRequest (req 0x50#8 0#32) ∧
    [req 0x13#8 7#32, req 0x50#8 0#32] = [req 0x13#8 7#32] ++ [req 0x50#8 0#32] :=
  ⟨List.Perm.swap _ _ _, ⟨_, rfl⟩, ⟨_, rfl⟩, rfl⟩
theorem witness_ScriptAddsOneResponsePerLine : State.reset.pending = [] ∧ ∃ t, Script.run scriptP3 State.reset = some t :=
  ⟨rfl, _, rfl⟩
theorem witness_ImageIsTheFieldByteByByte : 5 < 6 ∧ 3 < 4 ∧ 23 < 24 := by decide
theorem witness_AddAndMultiplyCommute : defaults.addEqualSign three five = defaults.addEqualSign five three := rfl
theorem witness_AddOfNegationIsZero : three.mant ≠ 0 := by decide
theorem witness_DivideByZeroGivesSentinel : (zeroAt 7#32).mant = 0 := rfl
theorem witness_NormalFloatsRoundTrip : F32.isNormal 0x00800000#32 = true ∧ F32.isNormal 0xFF7FFFFF#32 = true := by decide
/-- Each way a constructor's value meets the premise of the second part. -/
theorem witness_NormalFloatsRoundTrip_constructors :
    (∃ (p : Config.Params) (f : Word32), Client.f32ToExt defaults 0#32 = Client.f32ToExt p f) ∧
    (∃ i, Client.i32ToExt 7#32 = Client.i32ToExt i) ∧ ∃ cs, three = Client.decimalStringToExt cs :=
  ⟨⟨_, _, rfl⟩, ⟨_, rfl⟩, ['3'], test_decimal_three.symm⟩
/-- A divisor that is not zero and below the threshold of the default, and the largest threshold allowed. -/
theorem witness_FlagsAccumulateThroughClientOps :
    tiny.mant ≠ 0 ∧ defaults.f32ZeroBelow ≤ -126 ∧ tiny.magnitude < (2 : ℚ) ^ defaults.f32ZeroBelow := by
  refine ⟨by decide, by decide, ?_⟩
  norm_num [ExtFloat.magnitude, ExtFloat.trueExp, tiny, defaults, f32ZeroBelowBinary32]
theorem witness_FlagsAccumulateThroughClientOps_bound : ({ defaults with f32ZeroBelow := -126 }).f32ZeroBelow ≤ -126 := by
  decide
/-- Distance 0 and distance 128; a zero below a non-zero value; two zeros. -/
theorem witness_CompareIgnoresSigns :
    (atExp 0x80000080#32).mant ≠ 0 ∧ (atExp 0x80000000#32).mant ≠ 0 ∧
    (atExp 0x80000000#32).exp.toNat ≤ (atExp 0x80000080#32).exp.toNat ∧
    (atExp 0x80000080#32).exp.toNat ≤ (atExp 0x80000000#32).exp.toNat + 128 ∧
    (zeroAt 7#32).mant = 0 ∧ (zeroAt 0#32).mant = 0 := by decide
/-- Equal signs, one below the carry and at it. -/
theorem witness_AddFollowsAlignedMantissas_same :
    Flag.signOf (atExp 7#32) = Flag.signOf (⟨BitVec.twoPow 128 127 - 1#128, 0, 7#32⟩ : ExtFloat) ∧
    (let t := equalizeExp defaults.eqexpFar (atExp 7#32) ⟨BitVec.twoPow 128 127 - 1#128, 0, 7#32⟩
     t.1.mant.toNat + t.2.mant.toNat < 2 ^ 128) ∧
    (let t := equalizeExp defaults.eqexpFar (atExp 7#32) (atExp 7#32)
     2 ^ 128 ≤ t.1.mant.toNat + t.2.mant.toNat) := by decide
/-- Different signs: the second smaller by one, larger by one, equal. -/
theorem witness_AddFollowsAlignedMantissas_differ :
    let near : ExtFloat := ⟨BitVec.twoPow 128 127 + 1#128, 1#32, 7#32⟩
    let neg : ExtFloat := ⟨BitVec.twoPow 128 127, 1#32, 7#32⟩
    Flag.signOf near ≠ Flag.signOf (atExp 7#32) ∧ Flag.signOf neg ≠ Flag.signOf (atExp 7#32) ∧
    (let t := equalizeExp defaults.eqexpFar near (atExp 7#32); t.2.mant.toNat < t.1.mant.toNat) ∧
    (let t := equalizeExp defaults.eqexpFar (atExp 7#32) near; t.1.mant.toNat < t.2.mant.toNat) ∧
    (let t := equalizeExp defaults.eqexpFar (atExp 7#32) neg; t.1.mant.toNat = t.2.mant.toNat) := by decide
/-- Both ends of the range in which the exponent does not wrap. -/
theorem witness_MultiplyTruncatesTrueProduct :
    defaults.mulExpAdj = mulExpAdjMinus128 ∧ (atExp 0#32).mant ≠ 0 ∧
    2 ^ 31 + 255 ≤ (atExp 0x80000000#32).exp.toNat + (atExp 255#32).exp.toNat ∧
    (atExp 0xFFFFFFFF#32).exp.toNat + (atExp 0x80000000#32).exp.toNat < 2 ^ 32 + 2 ^ 31 :=
  ⟨rfl, by decide, by decide, by decide⟩

end Sys2Proof.Tests
end

/-! # Proofs

What one transaction does, by the request at the head of the pending ones, and what the block drives in a response. -/

namespace Sys2Proof.Proofs

open Machine Statement

/-! ## The step, when it is known what the decoder answers -/

/-- The transaction of a request the decoder reads: its answer, and nothing else changed (R241, R252). -/
theorem step_of_decode_ok {s : State} {r : Request} {rest : List Request} {i : Instr} (hp : s.pending = r :: rest)
    (hd : decode r = .ok i) : step s = Gives (answer i) { s with pending := rest } := by
  have hw : i.op.countLegal i.count = true := decode_wellFormed hd
  simp only [step, takeRequest_cons hp, hd, exec_cases, respondCounted_legal hw, respond_eq, Gives]

/-- A request the decoder refuses is refused by the step, for the decoder's reason (R55). -/
theorem step_of_decode_error {s : State} {r : Request} {rest : List Request} {why : IllFormed}
    (hp : s.pending = r :: rest) (hd : decode r = .error why) : step s = .refused (.illFormedRequest why) := by
  simp only [step, takeRequest_cons hp, hd, refuse]

/-- With nothing pending a step changes nothing (R240; log entry 2). -/
theorem step_of_idle {s : State} (hp : s.pending = []) : step s = .next s := by
  simp only [step, takeRequest_nil hp, idle]

/-! ## The driven bits: one lemma for each shape of row in the table of R51 -/

/-- One limb and a condition: ADDC. -/
theorem within_limb_condition (x : Limb) (c : Bool) :
    Within ⟨Bus.ofLimb x, 0, 0, c⟩ ⟨Bus.limbMask, 0, 0, true⟩ := by
  simp [Within]

/-- One wide value. -/
theorem within_wide (a : Limb128) : Within ⟨Bus.ofWide a, 0, 0, false⟩ ⟨Bus.wideMask, 0, 0, false⟩ := by
  simp [Within]

/-- One wide value and a condition: ADDF, ADDHI. -/
theorem within_wide_condition (a : Limb128) (c : Bool) :
    Within ⟨Bus.ofWide a, 0, 0, c⟩ ⟨Bus.wideMask, 0, 0, true⟩ := by
  simp [Within]

/-- One wide value and a scalar: MULNH. -/
theorem within_wide_scalar (a : Limb128) (n : Word32) :
    Within ⟨Bus.ofWide a, 0, n, false⟩ ⟨Bus.wideMask, 0, scalarMask, false⟩ := by
  simp [Within, scalarMask]

/-- Two wide values: MULF. -/
theorem within_two_wide (a b : Limb128) :
    Within ⟨Bus.ofWide a, Bus.ofWide b, 0, false⟩ ⟨Bus.wideMask, Bus.wideMask, 0, false⟩ := by
  simp [Within]

/-- Two wide values and a condition: DIVMOD. -/
theorem within_two_wide_condition (a b : Limb128) (c : Bool) :
    Within ⟨Bus.ofWide a, Bus.ofWide b, 0, c⟩ ⟨Bus.wideMask, Bus.wideMask, 0, true⟩ := by
  simp [Within]

/-- A scalar: LZL, HSB, CMP. -/
theorem within_scalar (n : Word32) : Within ⟨0, 0, n, false⟩ ⟨0, 0, scalarMask, false⟩ := by
  simp [Within, scalarMask]

/-- One ExtFloat: NORM. -/
theorem within_ext (v : ExtFloat) : Within ⟨Bus.ofExt v, 0, 0, false⟩ ⟨Bus.extMask, 0, 0, false⟩ := by
  simp [Within, Bus.extMask]

/-- Two ExtFloats: EQEXP. -/
theorem within_two_ext (v w : ExtFloat) :
    Within ⟨Bus.ofExt v, Bus.ofExt w, 0, false⟩ ⟨Bus.extMask, Bus.extMask, 0, false⟩ := by
  simp [Within, Bus.extMask]

/-- Every operation's answer is zero wherever its row of the table drives nothing (R51, R52). -/
theorem answer_within (i : Instr) : Within (answer i) (drives i.op) :=
  match i with
  | .addc _ _ _ => within_limb_condition _ _
  | .addf _ _ | .addhi _ _ => within_wide_condition _ _
  | .neg _ | .sub _ _ | .mullo _ _ => within_wide _
  | .mulf _ _ => within_two_wide _ _
  | .mulnh _ _ => within_wide_scalar _ _
  | .shbu _ _ | .shbd _ _ | .shlu _ _ | .shld _ _ | .shu _ _ | .shd _ _ => within_wide _
  | .lzl _ | .hsb _ | .cmp _ _ => within_scalar _
  | .divmod _ _ => within_two_wide_condition _ _ _
  | .to16 _ | .from16 _ => within_wide _
  | .eqexp _ _ => within_two_ext _ _
  | .norm _ => within_ext _

/-! ## The statements about the state: reset, the invariant, independence of the history (10_state.md) -/

/-- The invariant asks of every response what it asks of it alone, so the answer of a well-formed instruction may be added,
whatever is then pending. -/
theorem inv_append_answer {s : State} {i : Instr} (h : s.Inv) (hw : i.wellFormed = true) (rest : List Request) :
    State.Inv { pending := rest, responses := s.responses ++ [answer i] } := by
  intro r hr
  obtain hr | hr := List.mem_append.mp hr
  · exact h r hr
  · exact ⟨i, hw, List.mem_singleton.mp hr, List.mem_singleton.mp hr ▸ answer_within i⟩

/-- Settles O43: an idle step changes nothing, a refused one gives no next state, and a transaction adds the answer of a
decoded, hence well-formed, instruction. -/
theorem stepKeepsInvariant : Obligations.StepKeepsInvariant := by
  intro s t hinv hstep
  obtain ⟨-, hs⟩ | ⟨r, rest, i, -, hd, hs⟩ | ⟨r, rest, why, -, -, hs⟩ := step_cases s
  · cases hs.symm.trans hstep
    exact hinv
  · cases hs.symm.trans hstep
    exact inv_append_answer hinv (decode_wellFormed hd) rest
  · cases hs.symm.trans hstep

/-- Settles O47: the decoder sees the request alone, and what it answers decides the outcome. -/
theorem historyDoesNotMatter : Obligations.HistoryDoesNotMatter := by
  intro r s1 s2
  cases hd : decode r with
  | ok i =>
    exact .inl ⟨answer i, step_of_decode_ok (presentFirst_pending r s1) hd,
      step_of_decode_ok (presentFirst_pending r s2) hd⟩
  | error why =>
    exact .inr ⟨.illFormedRequest why, step_of_decode_error (presentFirst_pending r s1) hd,
      step_of_decode_error (presentFirst_pending r s2) hd⟩

/-- Settles O41: both lists are empty at reset, so the step is idle there, and a request presented next is at the head. -/
theorem resetIsIdle : Obligations.ResetIsIdle :=
  ⟨reset_pending, reset_responses, step_of_idle reset_pending,
    fun r _ hd => step_of_decode_ok (present_pending r State.reset) hd⟩

/-- Settles O42: both lists are empty at reset, so no response and no request is there to break a duty. -/
theorem resetMeetsInvariant : Obligations.ResetMeetsInvariant := by
  have hinv : State.reset.Inv := fun _ hr => absurd hr List.not_mem_nil
  have hsafe : State.reset.Safe := fun _ hr => absurd hr List.not_mem_nil
  exact ⟨hinv, hsafe, rfl⟩

end Sys2Proof.Proofs

/-! # Proofs: the memory (20_memory.md)

The step in terms of `exec`, a run over well-formed requests, and the byte images as the bytes of one number. -/

namespace Sys2Proof.Proofs

open Machine Image

/-! ## The step and the run -/

/-- A request the decoder reads is taken off the pending ones and its instruction runs on what is left. -/
theorem step_eq_exec {s : State} {r : Request} {rest : List Request} {i : Instr} (hp : s.pending = r :: rest)
    (hd : decode r = .ok i) : step s = exec i { s with pending := rest } := by
  simp only [step, takeRequest_cons hp, hd]

/-- Settles O39: the three answers of a step, by whether a request is pending and what the decoder says of it. -/
theorem stepRunsDecodedInstr : Obligations.StepRunsDecodedInstr :=
  ⟨fun _ _ _ _ hp hd => step_eq_exec hp hd, fun _ _ _ _ hp hd => step_of_decode_error hp hd,
    fun _ hp => step_of_idle hp⟩

theorem answerRequest_of_decode_ok {r : Request} {i : Instr} (hd : decode r = .ok i) :
    answerRequest r = some (answer i) := by
  simp only [answerRequest, hd, Except.toOption, Option.map_some]

/-- A run with one step for each request answers every request, each with its own answer (R252). -/
theorem run_wellFormed {l : List Request} (h : ∀ r ∈ l, WellFormedRequest r) (rs : List Response) :
    Host.Core.run core l.length { pending := l, responses := rs } =
      .next { pending := [], responses := rs ++ l.filterMap answerRequest } := by
  induction l generalizing rs with
  | nil => simp [Host.Core.run]
  | cons r rest ih =>
    obtain ⟨⟨i, hd⟩, hrest⟩ := List.forall_mem_cons.mp h
    have hs : core.step { pending := r :: rest, responses := rs } =
        .next { pending := rest, responses := rs ++ [answer i] } :=
      step_of_decode_ok (s := { pending := r :: rest, responses := rs }) rfl hd
    simp only [List.length_cons, Host.Core.run, hs, ih hrest, List.filterMap_cons, answerRequest_of_decode_ok hd,
      List.append_assoc, List.singleton_append]

/-- From an empty state the responses are the answers and nothing else. -/
theorem run_wellFormed_empty {l : List Request} (h : ∀ r ∈ l, WellFormedRequest r) :
    Host.Core.run core l.length { pending := l, responses := [] } =
      .next { pending := [], responses := l.filterMap answerRequest } :=
  run_wellFormed h []

/-- A request together with its own answer, if it has one. -/
def answered (r : Request) : Option (Request × Response) := (answerRequest r).map (Prod.mk r)

/-- Well-formed requests stand beside their own answers: no answer is missing, so none is out of place. -/
theorem zip_answers {l : List Request} (h : ∀ r ∈ l, WellFormedRequest r) :
    l.zip (l.filterMap answerRequest) = l.filterMap answered := by
  induction l with
  | nil => rfl
  | cons r rest ih =>
    obtain ⟨⟨i, hd⟩, hrest⟩ := List.forall_mem_cons.mp h
    simp only [List.filterMap_cons, answered, answerRequest_of_decode_ok hd, Option.map_some, List.zip_cons_cons,
      ih hrest]

/-- Settles O48: a run's responses are the requests' own answers, so reordering the requests reorders the answers with
them, and the answers to two parts are the two parts of the answers. -/
theorem orderOfTransactionsDoesNotMatter : Obligations.OrderOfTransactionsDoesNotMatter := by
  intro l l' hperm hl
  have hl' : ∀ r ∈ l', WellFormedRequest r := fun r hr => hl r (hperm.mem_iff.mpr hr)
  refine ⟨_, _, run_wellFormed_empty hl, run_wellFormed_empty hl', ?_, ?_⟩
  · rw [zip_answers hl, zip_answers hl']
    exact hperm.filterMap answered
  · rintro l1 l2 rfl
    obtain ⟨hl1, hl2⟩ := List.forall_mem_append.mp hl
    exact ⟨_, _, run_wellFormed_empty hl1, run_wellFormed_empty hl2, List.filterMap_append⟩

/-! ## The bytes of a value -/

/-- A part of a part is a part of the whole, where the outer part reaches far enough. -/
theorem extractLsb'_extractLsb' {w a m b n : Nat} (x : BitVec w) (h : b + n ≤ m) :
    (x.extractLsb' a m).extractLsb' b n = x.extractLsb' (a + b) n := by
  apply BitVec.eq_of_getLsbD_eq
  intro i hi
  have him : b + i < m := by omega
  simp [hi, him, Nat.add_assoc]

@[simp] theorem length_bytes {w : Nat} (n : Nat) (v : BitVec w) : (bytes n v).length = n := by
  simp [bytes]

/-- Byte `j` holds bits `[8j+7:8j]` (R32). -/
theorem getElem?_bytes {w n j : Nat} (v : BitVec w) (h : j < n) : (bytes n v)[j]? = some (v.extractLsb' (8 * j) 8) := by
  simp [bytes, h]

theorem bytes_succ {w : Nat} (n : Nat) (v : BitVec w) : bytes (n + 1) v = bytes n v ++ [v.extractLsb' (8 * n) 8] := by
  simp [bytes, List.range_succ]

/-- The bytes above the lowest `m` are those of the part of the value above bit `8m`. -/
theorem bytes_add {w : Nat} (m k : Nat) (v : BitVec w) :
    bytes (m + k) v = bytes m v ++ bytes k (v.extractLsb' (8 * m) (8 * k)) := by
  have hbyte : ∀ j ∈ List.range k,
      v.extractLsb' (8 * (m + j)) 8 = (v.extractLsb' (8 * m) (8 * k)).extractLsb' (8 * j) 8 := by
    intro j hj
    have hj : j < k := List.mem_range.mp hj
    rw [extractLsb'_extractLsb' v (by omega), Nat.mul_add]
  simp only [bytes, List.range_add, List.map_append, List.map_map]
  exact congrArg _ (List.map_congr_left hbyte)

/-- A value cut into `n` units of `k` bytes: its bytes are those of its units, the least significant unit first. -/
theorem bytes_mul {w : Nat} (n k : Nat) (v : BitVec w) :
    bytes (n * k) v = (List.range n).flatMap fun u => bytes k (v.extractLsb' (8 * (u * k)) (8 * k)) := by
  induction n with
  | zero => simp [bytes]
  | succ n ih => rw [Nat.succ_mul, bytes_add, ih, List.range_succ, List.flatMap_append, List.flatMap_singleton]

theorem number_append (bs cs : List Byte) : number (bs ++ cs) = number bs + 2 ^ (8 * bs.length) * number cs := by
  induction bs with
  | nil => simp [number]
  | cons b bs ih =>
    have hpow : 2 ^ (8 * (bs.length + 1)) = 2 ^ 8 * 2 ^ (8 * bs.length) := by ring
    simp only [List.cons_append, number, ih, List.length_cons, hpow]
    ring

/-- The bytes of a value hold the value, as far as they reach. -/
theorem number_bytes {w : Nat} (n : Nat) (v : BitVec w) : number (bytes n v) = v.toNat % 2 ^ (8 * n) := by
  induction n with
  | zero => simp [bytes, number, Nat.mod_one]
  | succ n ih =>
    rw [bytes_succ, number_append, ih, length_bytes, Nat.mul_succ, Nat.pow_add, Nat.mod_mul]
    simp [number, Nat.shiftRight_eq_div_pow]

/-! ## The images as the bytes of one value (R31 to R33) -/

theorem ofLimb128_eq_bytes (a : Limb128) : ofLimb128 a = bytes 16 a := (bytes_mul 4 4 a).symm

theorem ofLimb128x16_eq_bytes (w : Limb128x16) : ofLimb128x16 w = bytes 16 w := (bytes_mul 8 2 w).symm

/-- Limb `i` of the value on a field is the field's word `i`. -/
theorem limb_wide (f : Bus) {i : Nat} (h : i < 4) : limb (Bus.wide f) i = f.extractLsb' (32 * i) 32 := by
  rw [limb, Bus.wide, BitVec.extractLsb'_extractLsb'_of_le (by omega)]

/-- The six words of the ExtFloat on a field are the field cut every 32 bits. -/
theorem words_ext (f : Bus) : words (Bus.ext f) = (List.range 6).map fun u => f.extractLsb' (32 * u) 32 := by
  simp [words, Bus.ext, Bus.flags, Bus.exp, limb_wide, List.range_succ]

theorem words_eq (v : ExtFloat) : words v = (List.range 6).map fun u => (Bus.ofExt v).extractLsb' (32 * u) 32 := by
  rw [← words_ext, ext_ofExt]

theorem getElem?_words (v : ExtFloat) {u : Nat} (h : u < 6) :
    (words v)[u]? = some ((Bus.ofExt v).extractLsb' (32 * u) 32) := by
  simp [words_eq, h]

/-- The image of an ExtFloat is its field written out from bit 0 (R32, decision D5). -/
theorem ofExt_eq_bytes (v : ExtFloat) : ofExt v = bytes 24 (Bus.ofExt v) := by
  rw [ofExt, words_eq, List.flatMap_map]
  exact (bytes_mul 6 4 _).symm

/-- The image of an ExtFloat begins with that of its mantissa. -/
theorem ofExt_eq_append (v : ExtFloat) : ofExt v = ofLimb128 v.mant ++ [v.flags, v.exp].flatMap (bytes 4) :=
  List.flatMap_append (xs := [limb v.mant 0, limb v.mant 1, limb v.mant 2, limb v.mant 3])

theorem length_ofLimb128 (a : Limb128) : (ofLimb128 a).length = 16 := by
  rw [ofLimb128_eq_bytes, length_bytes]

theorem toBus_ofExt (v : ExtFloat) : toBus (ofExt v) = some (Bus.ofExt v) := by
  rw [ofExt_eq_bytes, toBus, length_bytes, if_pos rfl, number_bytes, Nat.mod_eq_of_lt (Bus.ofExt v).isLt,
    BitVec.ofNat_toNat, BitVec.setWidth_eq]

theorem toExt_ofExt (v : ExtFloat) : toExt (ofExt v) = some v := by
  rw [toExt, toBus_ofExt, Option.map_some, ext_ofExt]

/-- Settles O50: the image is the 24 bytes of the field, whose words are the words of the ExtFloat. -/
theorem imageIsTheFieldByteByByte : Obligations.ImageIsTheFieldByteByByte := by
  intro v
  refine ⟨by rw [ofExt_eq_bytes, length_bytes], ?_, ?_, toBus_ofExt v, toExt_ofExt v⟩
  · intro u hu j hj
    have hword : 8 * (4 * u + j) = 32 * u + 8 * j := by omega
    rw [ofExt_eq_bytes, getElem?_bytes _ (by omega), getElem?_words v hu, Option.map_some,
      extractLsb'_extractLsb' _ (by omega), hword]
  · intro j hj
    rw [ofExt_eq_bytes, getElem?_bytes _ hj]

/-- `to16` regroups the bits and changes none (R151, R153 (a)). -/
theorem to16_eq_self (a : Limb128) : to16 a = a := by
  apply BitVec.eq_of_toNat_eq
  have ha := toNat_eq_limbs a
  simp only [to16, ofDigits_toNat, lowDigit_toNat, highDigit_toNat]
  omega

/-- Settles O51: `to16` is the identity on bits, both images are the 16 bytes of the value, and the image of an ExtFloat
begins with its mantissa's. -/
theorem wideImagesAgree : Obligations.WideImagesAgree := by
  intro v
  have hlen : (ofLimb128 v.mant).length = 16 := length_ofLimb128 v.mant
  refine ⟨?_, ?_, hlen⟩
  · rw [to16_eq_self, ofLimb128x16_eq_bytes, ofLimb128_eq_bytes]
  · rw [ofExt_eq_append, List.take_left' hlen]

end Sys2Proof.Proofs

/-! # Proofs: requests, responses, decoding (30_encoding.md)

The flat words as concatenations of their fields, what the decoder makes of an encoding and of ignored bits, and the lines
of a script. -/

namespace Sys2Proof.Proofs

open Machine Statement

/-! ## The fields of the flat words (R46, R48) -/

@[simp] theorem op_toWord (r : Request) : r.toWord.extractLsb' 0 8 = r.op :=
  BitVec.extractLsb'_append_eq_right

@[simp] theorem a_toWord (r : Request) : r.toWord.extractLsb' 8 192 = r.A := by
  rw [Request.toWord, BitVec.extractLsb'_append_eq_of_le (by decide), BitVec.extractLsb'_append_eq_right]

@[simp] theorem b_toWord (r : Request) : r.toWord.extractLsb' 200 192 = r.B := by
  rw [Request.toWord, BitVec.extractLsb'_append_eq_of_le (by decide), BitVec.extractLsb'_append_eq_of_le (by decide),
    BitVec.extractLsb'_append_eq_right]

@[simp] theorem n_toWord (r : Request) : r.toWord.extractLsb' 392 32 = r.N := by
  rw [Request.toWord, BitVec.extractLsb'_append_eq_of_le (by decide), BitVec.extractLsb'_append_eq_of_le (by decide),
    BitVec.extractLsb'_append_eq_of_le (by decide)]
  exact BitVec.extractLsb'_eq_self

@[simp] theorem request_ofWord_toWord (r : Request) : Request.ofWord r.toWord = r := by
  simp only [Request.ofWord, op_toWord, a_toWord, b_toWord, n_toWord]

/-- The four fields of a request word lie one above the other and fill it. -/
@[simp] theorem request_toWord_ofWord (w : BitVec 424) : (Request.ofWord w).toWord = w := by
  simp only [Request.toWord, Request.ofWord]
  rw [BitVec.extractLsb'_append_extractLsb'_eq_extractLsb' (show 392 = 200 + 192 from rfl),
    BitVec.extractLsb'_append_extractLsb'_eq_extractLsb' (show 200 = 8 + 192 from rfl),
    BitVec.extractLsb'_append_extractLsb'_eq_extractLsb' (show 8 = 0 + 8 from rfl)]
  exact BitVec.extractLsb'_eq_self

@[simp] theorem x_toWord (r : Response) : r.toWord.extractLsb' 0 192 = r.X :=
  BitVec.extractLsb'_append_eq_right

@[simp] theorem y_toWord (r : Response) : r.toWord.extractLsb' 192 192 = r.Y := by
  rw [Response.toWord, BitVec.extractLsb'_append_eq_of_le (by decide), BitVec.extractLsb'_append_eq_right]

@[simp] theorem s_toWord (r : Response) : r.toWord.extractLsb' 384 32 = r.S := by
  rw [Response.toWord, BitVec.extractLsb'_append_eq_of_le (by decide), BitVec.extractLsb'_append_eq_of_le (by decide),
    BitVec.extractLsb'_append_eq_right]

@[simp] theorem c_toWord (r : Response) : r.toWord.getLsbD 416 = r.C := by
  rw [Response.toWord, BitVec.getLsbD_append, BitVec.getLsbD_append, BitVec.getLsbD_append]
  simp

@[simp] theorem response_ofWord_toWord (r : Response) : Response.ofWord r.toWord = r := by
  simp only [Response.ofWord, x_toWord, y_toWord, s_toWord, c_toWord]

/-- One bit of a value as a part of it. -/
theorem ofBool_getLsbD {w : Nat} (x : BitVec w) (i : Nat) : BitVec.ofBool (x.getLsbD i) = x.extractLsb' i 1 := by
  apply BitVec.eq_of_getLsbD_eq
  intro j hj
  obtain rfl : j = 0 := by omega
  simp

/-- The four fields of a response word lie one above the other and fill it. -/
@[simp] theorem response_toWord_ofWord (w : BitVec 417) : (Response.ofWord w).toWord = w := by
  simp only [Response.toWord, Response.ofWord, ofBool_getLsbD]
  rw [BitVec.extractLsb'_append_extractLsb'_eq_extractLsb' (show 416 = 384 + 32 from rfl),
    BitVec.extractLsb'_append_extractLsb'_eq_extractLsb' (show 384 = 192 + 192 from rfl),
    BitVec.extractLsb'_append_extractLsb'_eq_extractLsb' (show 192 = 0 + 192 from rfl)]
  exact BitVec.extractLsb'_eq_self

/-- Settles O32: each field read from the word is the field, and the fields fill the word; an ExtFloat's field is the number
of its limbs, flags and exponent. -/
theorem flatWordsCarryTheRecords : Obligations.FlatWordsCarryTheRecords :=
  ⟨fun r => ⟨op_toWord r, a_toWord r, b_toWord r, n_toWord r, request_ofWord_toWord r⟩, request_toWord_ofWord,
    fun r => ⟨x_toWord r, y_toWord r, s_toWord r, c_toWord r, response_ofWord_toWord r⟩, response_toWord_ofWord,
    fun v => ⟨ext_ofExt v, by rw [ofExt_toNat, toNat_eq_limbs v.mant]⟩⟩

/-! ## Encoding and decoding (R47, R50, R54 to R56) -/

/-- Every operand stands in the encoding where its operation reads it (R49, R50). -/
@[simp] theorem read_encode (i : Instr) : i.op.read (encode i) = i := by
  cases i <;> simp [Instr.op, encode, Op.read]

theorem decode_encode {i : Instr} (h : i.wellFormed = true) : decode (encode i) = .ok i :=
  decode_eq_ok.mpr ⟨i.op, (encode_op i).symm, (countLegal_encode i).trans h, (read_encode i).symm⟩

theorem decodeWord_encodeWord {i : Instr} (h : i.wellFormed = true) : decodeWord (encodeWord i) = .ok i := by
  rw [decodeWord, encodeWord, request_ofWord_toWord, decode_encode h]

/-- Settles O33: the encoding carries the operation's code, the count and every operand, so the decoder reads them back. -/
theorem decodeEncodeAgree : Obligations.DecodeEncodeAgree :=
  fun _ h => ⟨decode_encode h, decodeWord_encodeWord h⟩

/-- A word that is the encoding of a well-formed instruction decodes to it. -/
theorem decodeWord_of_encodeWord_eq {w : BitVec 424} {i : Instr} (hw : encodeWord i = w) (hi : i.wellFormed = true) :
    decodeWord w = .ok i :=
  hw ▸ decodeWord_encodeWord hi

set_option exponentiation.threshold 512 in
/-- Settles O34: each word of the spec is the encoding of the instruction named there. -/
theorem specWordsDecode : Obligations.SpecWordsDecode :=
  ⟨decodeWord_of_encodeWord_eq rfl rfl, decodeWord_of_encodeWord_eq rfl rfl, decodeWord_of_encodeWord_eq rfl rfl,
    decodeWord_of_encodeWord_eq rfl rfl, decodeWord_of_encodeWord_eq rfl rfl⟩

/-- A request is well-formed exactly when its code is an operation's and its count is legal for it (R54, R55). -/
theorem wellFormedRequest_iff {r : Request} :
    WellFormedRequest r ↔ ∃ o : Op, r.op.toNat = o.code.toNat ∧ o.countLegal r.N = true := by
  simp only [WellFormedRequest, decode_eq_ok, BitVec.toNat_inj]
  exact ⟨fun ⟨_, o, hc, hn, _⟩ => ⟨o, hc.symm, hn⟩, fun ⟨o, hc, hn⟩ => ⟨o.read r, o, hc.symm, hn, rfl⟩⟩

theorem wellFormed_of_counted (o : Op) {r : Request} {m : Nat} (hm : o.maxCount = some m)
    (hc : r.op.toNat = o.code.toNat) (hn : r.N.toNat ≤ m) : WellFormedRequest r :=
  wellFormedRequest_iff.mpr ⟨o, hc, (countLegal_iff hm r.N).mpr hn⟩

theorem wellFormed_of_uncounted (o : Op) {r : Request} (hm : o.maxCount = none) (hc : r.op.toNat = o.code.toNat) :
    WellFormedRequest r :=
  wellFormedRequest_iff.mpr ⟨o, hc, by rw [Op.countLegal, hm]⟩

/-- Settles O35: every row of the table falls in one of the cases, and each code of a case names a row. -/
theorem decodeRefusesExactlyIllFormed : Obligations.DecodeRefusesExactlyIllFormed := by
  intro r
  constructor
  · intro h
    obtain ⟨o, hc, hn⟩ := wellFormedRequest_iff.mp h
    cases o <;> simp_all [Op.code, Op.countLegal, Op.maxCount]
  · rintro (⟨hc, hn⟩ | ⟨hc | hc, hn⟩ | ⟨hc | hc, hn⟩ | ⟨hc | hc, hn⟩ | hc | hc | hc | hc | hc | hc | hc | hc)
    · exact wellFormed_of_counted .ADDC rfl hc hn
    · exact wellFormed_of_counted .SHBU rfl hc hn
    · exact wellFormed_of_counted .SHBD rfl hc hn
    · exact wellFormed_of_counted .SHLU rfl hc hn
    · exact wellFormed_of_counted .SHLD rfl hc hn
    · exact wellFormed_of_counted .SHU rfl hc hn
    · exact wellFormed_of_counted .SHD rfl hc hn
    · obtain hc | hc | hc | hc : r.op.toNat = 0x11 ∨ r.op.toNat = 0x12 ∨ r.op.toNat = 0x13 ∨ r.op.toNat = 0x14 := by omega
      · exact wellFormed_of_uncounted .ADDF rfl hc
      · exact wellFormed_of_uncounted .ADDHI rfl hc
      · exact wellFormed_of_uncounted .NEG rfl hc
      · exact wellFormed_of_uncounted .SUB rfl hc
    · obtain hc | hc | hc : r.op.toNat = 0x20 ∨ r.op.toNat = 0x21 ∨ r.op.toNat = 0x22 := by omega
      · exact wellFormed_of_uncounted .MULF rfl hc
      · exact wellFormed_of_uncounted .MULLO rfl hc
      · exact wellFormed_of_uncounted .MULNH rfl hc
    · obtain hc | hc | hc : r.op.toNat = 0x40 ∨ r.op.toNat = 0x41 ∨ r.op.toNat = 0x42 := by omega
      · exact wellFormed_of_uncounted .LZL rfl hc
      · exact wellFormed_of_uncounted .HSB rfl hc
      · exact wellFormed_of_uncounted .CMP rfl hc
    · exact wellFormed_of_uncounted .DIVMOD rfl hc
    · exact wellFormed_of_uncounted .TO16 rfl hc
    · exact wellFormed_of_uncounted .FROM16 rfl hc
    · exact wellFormed_of_uncounted .EQEXP rfl hc
    · exact wellFormed_of_uncounted .NORM rfl hc

/-! ## Ignored bits (R50) -/

/-- The operand bits an operation reads survive when the ignored bits are cleared. -/
theorem read_onlyRead {o : Op} {r : Request} (h : Op.ofCode r.op = some o) : o.read r.onlyRead = o.read r := by
  cases o <;> simp [Request.onlyRead, h, Op.format, Format.readsA, Format.readsB, Format.readsN, Op.read]

/-- A count that is cleared was legal, whatever it was. -/
theorem countLegal_onlyRead {o : Op} {r : Request} (h : Op.ofCode r.op = some o) :
    o.countLegal r.onlyRead.N = o.countLegal r.N := by
  rw [← count_read, read_onlyRead h, count_read]

@[simp] theorem op_onlyRead (r : Request) : r.onlyRead.op = r.op := by
  unfold Request.onlyRead
  split <;> rfl

/-- The decoder does not see the ignored bits. -/
theorem decode_onlyRead_eq_ok {r : Request} {i : Instr} : decode r.onlyRead = .ok i ↔ decode r = .ok i := by
  simp only [decode_eq_ok, op_onlyRead]
  refine exists_congr fun o => and_congr_right fun hc => ?_
  have ho : Op.ofCode r.op = some o := ofCode_eq_some.mpr hc
  rw [countLegal_onlyRead ho, read_onlyRead ho]

/-- Settles O36: two requests with one request left after the clearing are decoded like it, so to one instruction, whose
answer is the step. -/
theorem ignoredBitsDoNotMatter : Obligations.IgnoredBitsDoNotMatter := by
  intro r q s h
  have hdec : ∀ i, decode r = .ok i ↔ decode q = .ok i := fun i => by
    rw [← decode_onlyRead_eq_ok, h, decode_onlyRead_eq_ok]
  refine ⟨hdec, fun ⟨i, hd⟩ => ?_⟩
  rw [step_of_decode_ok (presentFirst_pending r s) hd, step_of_decode_ok (presentFirst_pending q s) ((hdec i).mp hd)]
  rfl

/-! ## The response of one instruction (R51, R52, R54) -/

/-- Settles O37: what `exec` adds is the instruction's answer, which is within its row of the table. -/
theorem undrivenBitsAreZero : Obligations.UndrivenBitsAreZero := by
  intro i s t h
  obtain ⟨-, hpending, hresponses⟩ := exec_next h
  exact ⟨answer i, hresponses, hpending, answer_within i⟩

/-- Settles O38: a legal count is all that a meaning asks. -/
theorem everyWellFormedInstrIsAnswered : Obligations.EveryWellFormedInstrIsAnswered := by
  intro i s h
  have hlegal : i.op.countLegal i.count = true := h
  rw [exec_cases, respondCounted_legal hlegal, respond_eq, Gives]

/-! ## Scripts (R58) -/

/-- A script that runs can read its first line, completes that line's transaction and runs on from there. -/
theorem script_run_cons {l : Script.Line} {ls : List Script.Line} {s t : State} (h : Script.run (l :: ls) s = some t) :
    ∃ r s', l.request s.responses = some r ∧ step (present r s) = .next s' ∧ Script.run ls s' = some t := by
  unfold Script.run at h
  split at h
  · cases h
  next r hr =>
    split at h
    next s' hs => exact ⟨r, s', hr, hs, h⟩
    · cases h
    · cases h

/-- A request presented to an idle block is the one its step takes: the step adds a response and leaves nothing pending. -/
theorem step_present {s t : State} {r : Request} (hs : s.pending = []) (h : step (present r s) = .next t) :
    t.pending = [] ∧ ∃ a, t.responses = s.responses ++ [a] := by
  have hp : (present r s).pending = [r] := by rw [present_pending, hs, List.nil_append]
  cases hd : decode r with
  | ok i =>
    cases (step_of_decode_ok hp hd).symm.trans h
    exact ⟨rfl, answer i, rfl⟩
  | error why => cases (step_of_decode_error hp hd).symm.trans h

/-- Settles O49, by induction on the lines: each adds the one response of its transaction. -/
theorem scriptAddsOneResponsePerLine : Obligations.ScriptAddsOneResponsePerLine := by
  intro ls
  induction ls with
  | nil =>
    intro s t hs h
    cases h
    exact ⟨hs, [], (List.append_nil _).symm, rfl⟩
  | cons l ls ih =>
    intro s t hs h
    obtain ⟨r, s', -, hstep, hrun⟩ := script_run_cons h
    obtain ⟨hs', a, ha⟩ := step_present hs hstep
    obtain ⟨ht, rs, hrs, hlen⟩ := ih s' t hs' hrun
    refine ⟨ht, a :: rs, ?_, congrArg (· + 1) hlen⟩
    rw [hrs, ha, List.append_assoc, List.singleton_append]

end Sys2Proof.Proofs

/-! # Proofs: the adder and the negator (40_adder_negator.md)

How a row of the opcode table runs and refuses, for any operation, and what the five operations of the unit answer, as
numbers on their fields. -/

namespace Sys2Proof.Proofs

open Machine Statement

/-! ## Running and refusing a row of the table (R50, R54, R55) -/

/-- A request with an operation's code and a count legal for it runs as the operation reads it. -/
theorem runsAs_read (o : Op) {legal : Word32 → Prop} (hlegal : ∀ n, legal n → o.countLegal n = true) :
    RunsAs o.code legal o.read := fun _ r _ hp hc hn =>
  step_eq_exec hp (decode_eq_ok.mpr ⟨o, hc.symm, hlegal r.N hn, rfl⟩)

theorem runsAs_counted (o : Op) {m : Nat} (hm : o.maxCount = some m) :
    RunsAs o.code (fun n => n.toNat ≤ m) o.read :=
  runsAs_read o fun n => (countLegal_iff hm n).mpr

theorem runsAs_uncounted (o : Op) (hm : o.maxCount = none) : RunsAs o.code AnyCount o.read :=
  runsAs_read o fun n _ => by rw [Op.countLegal, hm]

/-- A meaning whose count is the one given refuses it above the operation's largest. -/
theorem refusesCount (o : Op) {m : Nat} (hm : o.maxCount = some m) {build : Word32 → Instr}
    (hop : ∀ n, (build n).op = o) (hcount : ∀ n, (build n).count = n) : RefusesCount o build m := by
  intro n s hn
  have hillegal : o.countLegal n = false := by
    rw [← Bool.not_eq_true, countLegal_iff hm]
    exact Nat.not_le.mpr hn
  rw [exec_cases, hop, hcount, respondCounted_illegal hillegal, refuse]

/-- A well-formed instruction gives the response it answers with. -/
theorem exec_gives {i : Instr} {r : Response} (hw : i.wellFormed = true) (hr : answer i = r) (s : State) :
    exec i s = Gives r s :=
  hr ▸ everyWellFormedInstrIsAnswered i s hw

/-! ## Numbers on the fields of a response (R49) -/

theorem ofLimb_eq_field {x : Limb} {v : Nat} (h : x.toNat = v) : Bus.ofLimb x = field v :=
  h ▸ ofLimb_eq_ofNat x

theorem ofWide_eq_field {a : Limb128} {v : Nat} (h : a.toNat = v) : Bus.ofWide a = field v :=
  h ▸ ofWide_eq_ofNat a

/-- Of a sum below twice the range, the carry is its quotient by the range. -/
theorem carryOut_eq_div {w t : Nat} (h : t < 2 * 2 ^ w) : carryOut w t = decide (t / 2 ^ w = 1) := by
  have hpos : 0 < 2 ^ w := Nat.two_pow_pos w
  have hle : t / 2 ^ w ≤ 1 := Nat.lt_succ_iff.mp (Nat.div_lt_of_lt_mul (by omega))
  rw [carryOut, decide_eq_decide, ← Nat.one_le_div_iff hpos]
  omega

/-! ## What the unit answers (R71 to R75) -/

theorem answer_addc {a b : Limb} {n : Word32} (hn : n.toNat ≤ 1) :
    answer (.addc a b n) = ⟨field ((a.toNat + b.toNat + n.toNat) % 2 ^ 32), 0, 0,
      decide ((a.toNat + b.toNat + n.toNat) / 2 ^ 32 = 1)⟩ := by
  have hsum : (addWithCarry a b n.toNat).1.toNat = (a.toNat + b.toNat + n.toNat) % 2 ^ 32 :=
    (BitVec.toNat_ofNat _ _).trans (Nat.mod_mod _ _)
  have hcarry : (addWithCarry a b n.toNat).2 = decide ((a.toNat + b.toNat + n.toNat) / 2 ^ 32 = 1) :=
    carryOut_eq_div (by omega)
  simp only [answer, addcRsp, ofLimb_eq_field hsum, hcarry]

theorem answer_addf (a b : Limb128) :
    answer (.addf a b) = ⟨field ((a.toNat + b.toNat) % 2 ^ 128), 0, 0,
      decide ((a.toNat + b.toNat) / 2 ^ 128 = 1)⟩ := by
  have hcarry : (addFull a b).2 = decide ((a.toNat + b.toNat) / 2 ^ 128 = 1) :=
    (addFull_carry a b).trans (carryOut_eq_div (by omega))
  simp only [answer, addfRsp, ofWide_eq_field (addFull_sum a b), hcarry]

theorem answer_addhi_of_carry {a b : Limb128} (h : 2 ^ 128 ≤ a.toNat + b.toNat) :
    answer (.addhi a b) = ⟨field ((a.toNat + b.toNat) / 2 ^ 32), 0, 0, true⟩ := by
  obtain ⟨hvalue, hcarry⟩ := addHi_of_carry a b h
  simp only [answer, addhiRsp, ofWide_eq_field hvalue, hcarry]

theorem answer_addhi_of_no_carry {a b : Limb128} (h : a.toNat + b.toNat < 2 ^ 128) :
    answer (.addhi a b) = ⟨field (a.toNat + b.toNat), 0, 0, false⟩ := by
  obtain ⟨hvalue, hcarry⟩ := addHi_of_no_carry a b h
  simp only [answer, addhiRsp, ofWide_eq_field hvalue, hcarry]

theorem answer_neg (a : Limb128) :
    answer (.neg a) = ⟨field ((2 ^ 128 - a.toNat) % 2 ^ 128), 0, 0, false⟩ := by
  simp only [answer, negRsp, ofWide_eq_field (negate_toNat a)]

theorem answer_sub (a b : Limb128) :
    answer (.sub a b) = ⟨field ((a.toNat + 2 ^ 128 - b.toNat) % 2 ^ 128), 0, 0, false⟩ := by
  simp only [answer, subRsp, ofWide_eq_field (subtract_toNat a b)]

/-- Settles O1: a count up to 1 is legal and answered with sum and carry, one above it is refused. -/
theorem addcGivesSumAndCarry : Obligations.AddcGivesSumAndCarry :=
  ⟨fun a b n s hn => exec_gives (i := .addc a b n) ((countLegal_iff rfl n).mpr hn) (answer_addc hn) s,
    fun _ _ => refusesCount .ADDC rfl (fun _ => rfl) (fun _ => rfl), runsAs_counted .ADDC rfl⟩

/-- Settles O2: the ripple's sum and carry are those of the true sum. -/
theorem addfGivesSumAndCarry : Obligations.AddfGivesSumAndCarry :=
  ⟨fun a b s => exec_gives rfl (answer_addf a b) s, runsAs_uncounted .ADDF rfl⟩

/-- Settles O3, by whether the true sum carries out of 128 bits. -/
theorem addhiKeepsHighPart : Obligations.AddhiKeepsHighPart :=
  ⟨fun _ _ s h => exec_gives rfl (answer_addhi_of_carry h) s,
    fun _ _ s h => exec_gives rfl (answer_addhi_of_no_carry h) s, runsAs_uncounted .ADDHI rfl⟩

/-- Settles O4: the complement of every limb, plus 1, is what is missing to 2^128. -/
theorem negGivesTwosComplement : Obligations.NegGivesTwosComplement :=
  ⟨fun a s => exec_gives rfl (answer_neg a) s, runsAs_uncounted .NEG rfl⟩

/-- Settles O5: adding what `b` misses to 2^128 and dropping the carry takes `b` away modulo 2^128. -/
theorem subWrapsAround : Obligations.SubWrapsAround :=
  ⟨fun a b s => exec_gives rfl (answer_sub a b) s, runsAs_uncounted .SUB rfl⟩

/-! ## The laws of the family (R77) -/

theorem addFull_subtract (a b : Limb128) : (addFull (subtract a b) b).1 = a := by
  apply BitVec.eq_of_toNat_eq
  rw [addFull_sum, subtract_toNat]
  omega

theorem subtract_addFull (a b : Limb128) : subtract (addFull a b).1 b = a := by
  apply BitVec.eq_of_toNat_eq
  rw [subtract_toNat, addFull_sum]
  omega

/-- ADDHI reports a carry only for a sum that carries. -/
theorem sum_of_addHi_carry {a b : Limb128} (h : (addHi a b).2 = true) : 2 ^ 128 ≤ a.toNat + b.toNat := by
  by_contra hsum
  obtain ⟨-, hno⟩ := addHi_of_no_carry a b (Nat.lt_of_not_le hsum)
  exact Bool.false_ne_true (hno.symm.trans h)

/-- With a carry, the limb ADDHI drops is the lowest limb of the wrapped sum: the remainder of the true sum by 2^32. -/
theorem addHi_dropped_limb {a b : Limb128} (h : 2 ^ 128 ≤ a.toNat + b.toNat) :
    (addHi a b).1.toNat * 2 ^ 32 + (limb (addFull a b).1 0).toNat = a.toNat + b.toNat := by
  obtain ⟨hvalue, -⟩ := addHi_of_carry a b h
  rw [hvalue, limb_toNat, addFull_sum]
  omega

/-- Settles O6: the responses carry `addFull`, `addHi`, `negate` and `subtract`, so each law is one of theirs. -/
theorem adderFamilyLaws : Obligations.AdderFamilyLaws := by
  intro a b
  simp only [answer, addfRsp, addhiRsp, negRsp, subRsp, wide_ofWide, ofWide_toNat]
  refine ⟨addFull_toNat a b, ?_, ?_, rfl, addFull_subtract a b, subtract_addFull a b, fun hcarry => ?_⟩
  · rw [addFull_comm]
  · rw [addHi_comm]
  · have htrue := addHi_dropped_limb (sum_of_addHi_carry hcarry)
    have hlow := (limb (addFull a b).1 0).isLt
    exact ⟨htrue, by omega, by omega⟩

end Sys2Proof.Proofs

/-! # Proofs: the multiplier (41_multiplier.md)

What the three operations of the unit answer, as numbers on their fields, and the digit lattice as arithmetic on lists of
digits. -/

namespace Sys2Proof.Proofs

open Machine Statement Reference

/-! ## What the unit answers (R91, R93, R94) -/

theorem answer_mulf (a b : Limb128) :
    answer (.mulf a b) =
      ⟨field (a.toNat * b.toNat / 2 ^ 128), field (a.toNat * b.toNat % 2 ^ 128), 0, false⟩ := by
  obtain ⟨hhi, hlo⟩ := multiplyFull_toNat a b
  simp only [answer, mulfRsp, ofWide_eq_field hhi, ofWide_eq_field hlo, product]

theorem answer_mullo (a b : Limb128) :
    answer (.mullo a b) = ⟨field (a.toNat * b.toNat % 2 ^ 128), 0, 0, false⟩ := by
  simp only [answer, mulloRsp, ofWide_eq_field (multiplyLo_toNat a b), product]

theorem answer_mulnh_of_zero {a b : Limb128} (h : a.toNat * b.toNat = 0) :
    answer (.mulnh a b) = ⟨0, 0, 0, false⟩ := by
  simp only [answer, mulnhRsp, multiplyNormalizedHi, product, h, if_true]
  rfl

/-- A shift of at most 255 leaves `128 - shift` above -2^32, so its 32-bit encoding is that of `2^32 + 128 - shift` (D9). -/
theorem int32_128_sub {n : Nat} (h : n ≤ 255) : int32 (128 - (n : Int)) = BitVec.ofNat 32 (2 ^ 32 + 128 - n) := by
  apply BitVec.eq_of_toNat_eq
  simp only [int32, BitVec.toNat_ofInt, BitVec.toNat_ofNat]
  omega

theorem answer_mulnh_of_ne_zero {a b : Limb128} (h : a.toNat * b.toNat ≠ 0) :
    answer (.mulnh a b) =
      ⟨field (a.toNat * b.toNat * 2 ^ productShift (a.toNat * b.toNat) / 2 ^ 128), 0,
        BitVec.ofNat 32 (2 ^ 32 + 128 - productShift (a.toNat * b.toNat)), false⟩ := by
  obtain ⟨hle, -, hlt⟩ := productShift_spec _ h (product_lt a b)
  have htop : (BitVec.ofNat 128 (a.toNat * b.toNat * 2 ^ productShift (a.toNat * b.toNat) / 2 ^ 128)).toNat
      = a.toNat * b.toNat * 2 ^ productShift (a.toNat * b.toNat) / 2 ^ 128 :=
    (BitVec.toNat_ofNat _ _).trans (Nat.mod_eq_of_lt (Nat.div_lt_of_lt_mul hlt))
  simp only [answer, mulnhRsp, multiplyNormalizedHi, product, h, if_false, ofWide_eq_field htop, int32_128_sub hle]

/-- Settles O7: the halves are the quotient and the remainder of the product by 2^128. -/
theorem mulfGivesFullProduct : Obligations.MulfGivesFullProduct :=
  ⟨fun a b s => ⟨_, _, exec_gives rfl (answer_mulf a b) s, Nat.div_lt_of_lt_mul (product_lt a b),
    Nat.mod_lt _ (Nat.two_pow_pos 128), Nat.div_add_mod' _ _⟩, runsAs_uncounted .MULF rfl⟩

/-- Settles O8: the low half is the remainder of the product by 2^128. -/
theorem mulloGivesLowHalf : Obligations.MulloGivesLowHalf :=
  ⟨fun a b s => exec_gives rfl (answer_mullo a b) s, runsAs_uncounted .MULLO rfl⟩

/-- Settles O9, by whether the product is zero: if not, its leading zeros are the shift that sets bit 255. -/
theorem mulnhNormalisesProduct : Obligations.MulnhNormalisesProduct := by
  refine ⟨fun _ _ s h => exec_gives rfl (answer_mulnh_of_zero h) s, fun a b s h => ?_, runsAs_uncounted .MULNH rfl⟩
  obtain ⟨hle, hset, hlt⟩ := productShift_spec _ h (product_lt a b)
  exact ⟨_, hle, hset, hlt, exec_gives rfl (answer_mulnh_of_ne_zero h) s⟩

/-! ## Lists of digits -/

/-- A list of `n` digits of 16 bits. -/
def IsDigits (n : Nat) (l : List Nat) : Prop := l.length = n ∧ ∀ d ∈ l, d < base

theorem isDigits_nil : IsDigits 0 [] := ⟨rfl, by simp⟩

@[simp] theorem isDigits_cons {n d : Nat} {ds : List Nat} : IsDigits (n + 1) (d :: ds) ↔ d < base ∧ IsDigits n ds := by
  simp only [IsDigits, List.length_cons, Nat.add_right_cancel_iff, List.forall_mem_cons]
  tauto

theorem IsDigits.append {m n : Nat} {l k : List Nat} (hl : IsDigits m l) (hk : IsDigits n k) :
    IsDigits (m + n) (l ++ k) :=
  ⟨by rw [List.length_append, hl.1, hk.1], List.forall_mem_append.mpr ⟨hl.2, hk.2⟩⟩

theorem IsDigits.eq_nil {l : List Nat} (h : IsDigits 0 l) : l = [] := List.eq_nil_of_length_eq_zero h.1

/-- A list of digits that is not empty has a lowest digit. -/
theorem IsDigits.exists_cons {n : Nat} {l : List Nat} (h : IsDigits (n + 1) l) :
    ∃ d ds, l = d :: ds ∧ d < base ∧ IsDigits n ds := by
  obtain ⟨d, ds, rfl⟩ := List.exists_cons_of_length_eq_add_one h.1
  exact ⟨d, ds, rfl, isDigits_cons.mp h⟩

theorem value_append (l k : List Nat) : value (l ++ k) = value l + base ^ l.length * value k := by
  induction l with
  | nil => simp [value]
  | cons d l ih => simp only [List.cons_append, value, ih, List.length_cons]; ring

theorem IsDigits.value_lt {n : Nat} {l : List Nat} (h : IsDigits n l) : value l < base ^ n := by
  induction n generalizing l with
  | zero =>
    obtain rfl := h.eq_nil
    exact Nat.one_pos
  | succ n ih =>
    obtain ⟨d, ds, rfl, hd, hds⟩ := h.exists_cons
    calc value (d :: ds) < base * (value ds + 1) := by simp only [value, Nat.mul_add]; omega
      _ ≤ base * base ^ n := Nat.mul_le_mul_left _ (ih hds)
      _ = base ^ (n + 1) := Nat.pow_succ'.symm

/-- The low `m` digits are the remainder by `base ^ m`, the others the quotient. -/
theorem value_take_drop {m n : Nat} {l : List Nat} (h : IsDigits (m + n) l) :
    value (l.take m) = value l % base ^ m ∧ value (l.drop m) = value l / base ^ m := by
  have hlen : (l.take m).length = m := by rw [List.length_take, h.1]; omega
  have hlt : value (l.take m) < base ^ m :=
    IsDigits.value_lt ⟨hlen, fun d hd => h.2 d (List.mem_of_mem_take hd)⟩
  have hsum : value l = value (l.take m) + base ^ m * value (l.drop m) := by
    conv_lhs => rw [← List.take_append_drop m l, value_append, hlen]
  rw [hsum, Nat.add_mul_mod_self_left, Nat.mod_eq_of_lt hlt, Nat.add_mul_div_left _ _ (Nat.zero_lt_of_lt hlt),
    Nat.div_eq_of_lt hlt, Nat.zero_add]
  exact ⟨rfl, rfl⟩

theorem isDigits_digitsOf (w : Limb128x16) : IsDigits 8 (digitsOf w) := by
  have hdigit (k : Nat) : (digit w k).toNat < base := (digit w k).isLt
  simp only [digitsOf, isDigits_cons, hdigit, isDigits_nil, and_self]

theorem value_digitsOf (w : Limb128x16) : value (digitsOf w) = w.toNat := by
  have := w.isLt
  simp only [digitsOf, value, base, digit_toNat]
  omega

/-! ## The lattice (R92) -/

/-- A digit product and two digits more still fit two digits: `(B - 1)^2 + 2 (B - 1) = B^2 - 1`. -/
theorem partialSum_lt {x y r c : Nat} (hx : x < base) (hy : y < base) (hr : r < base) (hc : c < base) :
    partialSum x y r c < base * base := by
  have hxy : x * y ≤ (base - 1) * (base - 1) := Nat.mul_le_mul (Nat.le_sub_one_of_lt hx) (Nat.le_sub_one_of_lt hy)
  simp only [partialSum, base] at hx hy hr hc hxy ⊢
  omega

/-- A row adds `x` times the digits of `ys` to the window, with one running carry. -/
theorem row_spec {x n c : Nat} {ys w : List Nat} (hx : x < base) (hys : IsDigits n ys) (hw : IsDigits n w)
    (hc : c < base) :
    IsDigits n (row x ys w c).1 ∧ (row x ys w c).2 < base ∧
      value (row x ys w c).1 + base ^ n * (row x ys w c).2 = x * value ys + value w + c := by
  induction n generalizing ys w c with
  | zero =>
    obtain rfl := hys.eq_nil
    obtain rfl := hw.eq_nil
    simp [row, value, isDigits_nil, hc]
  | succ n ih =>
    obtain ⟨y, ys, rfl, hy, hys⟩ := hys.exists_cons
    obtain ⟨r, w, rfl, hr, hw⟩ := hw.exists_cons
    have hcarry : partialSum x y r c / base < base := Nat.div_lt_of_lt_mul (partialSum_lt hx hy hr hc)
    obtain ⟨hdigits, hlast, hvalue⟩ := ih hys hw hcarry
    have ht := Nat.mod_add_div (partialSum x y r c) base
    refine ⟨isDigits_cons.mpr ⟨Nat.mod_lt _ (by decide), hdigits⟩, hlast, ?_⟩
    simp only [row, value, Nat.pow_succ']
    simp only [partialSum] at ht hvalue ⊢
    linear_combination base * hvalue + ht

/-- Every partial sum of a row fits two digits. -/
theorem rowSums_spec {x n c : Nat} {ys w : List Nat} (hx : x < base) (hys : IsDigits n ys) (hw : IsDigits n w)
    (hc : c < base) : (rowSums x ys w c).length = n ∧ ∀ t ∈ rowSums x ys w c, t < base * base := by
  induction n generalizing ys w c with
  | zero =>
    obtain rfl := hys.eq_nil
    simp [rowSums]
  | succ n ih =>
    obtain ⟨y, ys, rfl, hy, hys⟩ := hys.exists_cons
    obtain ⟨r, w, rfl, hr, hw⟩ := hw.exists_cons
    have ht := partialSum_lt hx hy hr hc
    obtain ⟨hlen, hsums⟩ := ih hys hw (Nat.div_lt_of_lt_mul ht)
    exact ⟨congrArg (· + 1) hlen, List.forall_mem_cons.mpr ⟨ht, hsums⟩⟩

/-- After a row its lowest digit is final; the others and the carry are the next window. -/
theorem row_window {x n : Nat} {ys w : List Nat} (hx : x < base) (hys : IsDigits n ys) (hw : IsDigits n w) :
    ∃ d ds, (row x ys w 0).1 ++ [(row x ys w 0).2] = d :: ds ∧ d < base ∧ IsDigits n ds ∧
      d + base * value ds = x * value ys + value w := by
  obtain ⟨hdigits, hlast, hvalue⟩ := row_spec hx hys hw (by decide : 0 < base)
  obtain ⟨d, ds, heq, hd, hds⟩ := (hdigits.append (isDigits_cons.mpr ⟨hlast, isDigits_nil⟩)).exists_cons
  refine ⟨d, ds, heq, hd, hds, ?_⟩
  calc d + base * value ds = value ((row x ys w 0).1 ++ [(row x ys w 0).2]) := by rw [heq, value]
    _ = value (row x ys w 0).1 + base ^ n * (row x ys w 0).2 := by simp [value_append, hdigits.1, value]
    _ = x * value ys + value w := hvalue

theorem rows_cons {x d : Nat} {xs ys w ds : List Nat} (h : (row x ys w 0).1 ++ [(row x ys w 0).2] = d :: ds) :
    rows (x :: xs) ys w = d :: rows xs ys ds := by
  simp only [rows, h]

theorem rowsSums_cons {x d : Nat} {xs ys w ds : List Nat} (h : (row x ys w 0).1 ++ [(row x ys w 0).2] = d :: ds) :
    rowsSums (x :: xs) ys w = rowSums x ys w 0 ++ rowsSums xs ys ds := by
  simp only [rowsSums, h, List.tail_cons]

/-- The rows add the product of the two digit lists to the window. -/
theorem rows_spec {m n : Nat} {xs ys w : List Nat} (hxs : IsDigits m xs) (hys : IsDigits n ys) (hw : IsDigits n w) :
    IsDigits (n + m) (rows xs ys w) ∧ value (rows xs ys w) = value xs * value ys + value w := by
  induction m generalizing xs w with
  | zero =>
    obtain rfl := hxs.eq_nil
    simpa [rows, value] using hw
  | succ m ih =>
    obtain ⟨x, xs, rfl, hx, hxs⟩ := hxs.exists_cons
    obtain ⟨d, ds, heq, hd, hds, hvalue⟩ := row_window hx hys hw
    obtain ⟨hdigits, hrest⟩ := ih hxs hds
    rw [rows_cons heq]
    refine ⟨isDigits_cons.mpr ⟨hd, hdigits⟩, ?_⟩
    simp only [value, hrest]
    linear_combination hvalue

/-- The rows form `m * n` partial sums, and each fits two digits. -/
theorem rowsSums_spec {m n : Nat} {xs ys w : List Nat} (hxs : IsDigits m xs) (hys : IsDigits n ys)
    (hw : IsDigits n w) :
    (rowsSums xs ys w).length = m * n ∧ ∀ t ∈ rowsSums xs ys w, t < base * base := by
  induction m generalizing xs w with
  | zero =>
    obtain rfl := hxs.eq_nil
    simp [rowsSums]
  | succ m ih =>
    obtain ⟨x, xs, rfl, hx, hxs⟩ := hxs.exists_cons
    obtain ⟨d, ds, heq, -, hds, -⟩ := row_window hx hys hw
    obtain ⟨hlen, hsums⟩ := rowSums_spec hx hys hw (by decide : 0 < base)
    obtain ⟨hlens, hrest⟩ := ih hxs hds
    rw [rowsSums_cons heq]
    exact ⟨by rw [List.length_append, hlen, hlens]; ring, List.forall_mem_append.mpr ⟨hsums, hrest⟩⟩

theorem isDigits_zeros : IsDigits 8 [0, 0, 0, 0, 0, 0, 0, 0] := ⟨rfl, by decide⟩

/-- The lattice is the product in 16 digits. -/
theorem lattice_spec (a b : Limb128) :
    IsDigits 16 (lattice a b) ∧ value (lattice a b) = a.toNat * b.toNat := by
  obtain ⟨hdigits, hvalue⟩ := rows_spec (isDigits_digitsOf (to16 a)) (isDigits_digitsOf (to16 b)) isDigits_zeros
  refine ⟨hdigits, hvalue.trans ?_⟩
  rw [value_digitsOf, value_digitsOf, to16_eq_self, to16_eq_self]
  rfl

theorem latticeSums_spec (a b : Limb128) :
    (latticeSums a b).length = 64 ∧ ∀ t ∈ latticeSums a b, t < base * base :=
  rowsSums_spec (isDigits_digitsOf (to16 a)) (isDigits_digitsOf (to16 b)) isDigits_zeros

theorem reference_multiplyFull_eq (a b : Limb128) :
    Reference.multiplyFull a b =
      (BitVec.ofNat 128 (a.toNat * b.toNat / 2 ^ 128), BitVec.ofNat 128 (a.toNat * b.toNat % 2 ^ 128)) := by
  obtain ⟨hdigits, hvalue⟩ := lattice_spec a b
  obtain ⟨hlo, hhi⟩ := value_take_drop (m := 8) (n := 8) hdigits
  have hbase : base ^ 8 = 2 ^ 128 := (Nat.pow_mul 2 16 8).symm
  simp only [Reference.multiplyFull, hlo, hhi, hvalue, hbase]

/-- Settles O10: the rows add up to the product, and no partial sum leaves two digits. -/
theorem latticeComputesProduct : Obligations.LatticeComputesProduct := by
  have hbase : base * base = 2 ^ 32 := (Nat.pow_add 2 16 16).symm
  refine ⟨fun a b => ?_, fun x y r c hx hy hr hc => ?_⟩
  · obtain ⟨⟨hlength, hdigits⟩, -⟩ := lattice_spec a b
    obtain ⟨hcount, hsums⟩ := latticeSums_spec a b
    exact ⟨reference_multiplyFull_eq a b, hlength, hdigits, hcount, fun t ht =>
      ⟨hbase ▸ hsums t ht, Nat.div_lt_of_lt_mul (hsums t ht), Nat.mod_lt _ (Nat.two_pow_pos 16)⟩⟩
  · have ht := partialSum_lt hx hy hr hc
    exact ⟨hbase ▸ ht, Nat.div_lt_of_lt_mul ht⟩

end Sys2Proof.Proofs

/-! # Proofs: the shifter (42_shifter.md)

What the six shifts answer, as numbers on their fields and limb by limb; the limb views of the two bit shifts, bit by bit;
and how shifts compose. -/

namespace Sys2Proof.Proofs

open Machine Statement

/-! ## What the unit answers (R105 to R111) -/

/-- The response of a shift carries the number its result holds, and nothing else. -/
theorem shiftRsp_eq_field {r : Limb128} {v : Nat} (h : r.toNat = v) : shiftRsp r = ⟨field v, 0, 0, false⟩ := by
  rw [shiftRsp, ofWide_eq_field h]

/-- A shift whose count is up to its operation's largest gives the number its result holds. -/
theorem exec_shift {i : Instr} {r : Limb128} {m v : Nat} (hanswer : answer i = shiftRsp r)
    (hm : i.op.maxCount = some m) (hcount : i.count.toNat ≤ m) (hvalue : r.toNat = v) (s : State) :
    exec i s = Gives ⟨field v, 0, 0, false⟩ s :=
  exec_gives ((countLegal_iff hm i.count).mpr hcount) (hanswer.trans (shiftRsp_eq_field hvalue)) s

/-- Settles O11: a count up to 31 is legal and answered with the product or the quotient, one above it is refused. -/
theorem bitShiftsGiveProductAndQuotient : Obligations.BitShiftsGiveProductAndQuotient :=
  ⟨fun a n s hn =>
      ⟨exec_shift (i := .shbu a n) rfl rfl hn (shiftBitsUp_toNat a n.toNat) s,
        exec_shift (i := .shbd a n) rfl rfl hn (shiftBitsDown_toNat a n.toNat) s⟩,
    fun _ =>
      ⟨refusesCount .SHBU rfl (fun _ => rfl) (fun _ => rfl), refusesCount .SHBD rfl (fun _ => rfl) (fun _ => rfl)⟩,
    runsAs_counted .SHBU rfl, runsAs_counted .SHBD rfl⟩

/-- Settles O14: whole limbs and then bits make the product or the quotient by one power of two; the rest is as for the
bit shifts, with counts up to 128. -/
theorem wideShiftsGiveProductAndQuotient : Obligations.WideShiftsGiveProductAndQuotient :=
  ⟨fun a n s hn =>
      ⟨exec_shift (i := .shu a n) rfl rfl hn (shiftUp_toNat a n.toNat hn) s,
        exec_shift (i := .shd a n) rfl rfl hn (shiftDown_toNat a n.toNat hn) s⟩,
    fun _ =>
      ⟨refusesCount .SHU rfl (fun _ => rfl) (fun _ => rfl), refusesCount .SHD rfl (fun _ => rfl) (fun _ => rfl)⟩,
    runsAs_counted .SHU rfl, runsAs_counted .SHD rfl⟩

/-! ## Limb by limb (R10, R108, R109) -/

/-- Each limb of a number built from four limbs is the one it was built from. -/
theorem limb_ofLimbs (f : Nat → Limb) {i : Nat} (hi : i < 4) : limb (ofLimbs (f 0) (f 1) (f 2) (f 3)) i = f i := by
  interval_cases i
  · exact limb_ofLimbs_zero ..
  · exact limb_ofLimbs_one ..
  · exact limb_ofLimbs_two ..
  · exact limb_ofLimbs_three ..

theorem limb_shiftLimbsUp (a : Limb128) (n : Nat) {i : Nat} (hi : i < 4) :
    limb (shiftLimbsUp a n) i = if n ≤ i then limb a (i - n) else 0 :=
  limb_ofLimbs (limbUp a n) hi

theorem limb_shiftLimbsDown (a : Limb128) (n : Nat) {i : Nat} (hi : i < 4) :
    limb (shiftLimbsDown a n) i = if i + n ≤ 3 then limb a (i + n) else 0 :=
  limb_ofLimbs (limbDown a n) hi

/-- Settles O13: the number as for the bit shifts, with counts up to 4; the limbs are those the result is built from. -/
theorem limbShiftsMoveLimbs : Obligations.LimbShiftsMoveLimbs := by
  refine ⟨fun a n s hn => ⟨?_, ?_, fun i hi => ?_⟩, fun _ => ⟨?_, ?_⟩,
    runsAs_counted .SHLU rfl, runsAs_counted .SHLD rfl⟩
  · exact exec_shift (i := .shlu a n) rfl rfl hn (shiftLimbsUp_toNat a n.toNat hn) s
  · exact exec_shift (i := .shld a n) rfl rfl hn (shiftLimbsDown_toNat a n.toNat hn) s
  · simp only [answer, shluRsp, shldRsp, shiftRsp, wide_ofWide]
    exact ⟨limb_shiftLimbsUp a n.toNat hi, limb_shiftLimbsDown a n.toNat hi⟩
  · exact refusesCount .SHLU rfl (fun _ => rfl) (fun _ => rfl)
  · exact refusesCount .SHLD rfl (fun _ => rfl) (fun _ => rfl)

/-! ## The limb views of the bit shifts (R106, R107) -/

theorem shiftBitsUp_eq_shiftLeft (a : Limb128) (n : Nat) : shiftBitsUp a n = a <<< n := by
  apply BitVec.eq_of_toNat_eq
  rw [shiftBitsUp_toNat, BitVec.toNat_shiftLeft, Nat.shiftLeft_eq]

theorem shiftBitsDown_eq_ushiftRight (a : Limb128) (n : Nat) : shiftBitsDown a n = a >>> n := by
  apply BitVec.eq_of_toNat_eq
  rw [shiftBitsDown_toNat, BitVec.toNat_ushiftRight, Nat.shiftRight_eq_div_pow]

theorem getLsbD_limb (a : Limb128) (i j : Nat) : (limb a i).getLsbD j = (decide (j < 32) && a.getLsbD (32 * i + j)) := by
  rw [limb, BitVec.getLsbD_extractLsb']

/-- Four limbs make the number whose limbs they are. -/
theorem ofLimbs_eq_of_limb_eq {a : Limb128} (f : Nat → Limb) (h : ∀ i < 4, f i = limb a i) :
    ofLimbs (f 0) (f 1) (f 2) (f 3) = a := by
  rw [h 0 (by decide), h 1 (by decide), h 2 (by decide), h 3 (by decide), ofLimbs_limbs]

/-- Below bit `n` a limb shifted up is filled from the limb below, if there is one, and with zeros otherwise. -/
theorem bitsUpLimb_eq_limb (a : Limb128) {n i : Nat} (hn : n ≤ 31) (hi : i < 4) :
    Reference.bitsUpLimb a n i = limb (a <<< n) i := by
  apply BitVec.eq_of_getLsbD_eq
  intro j hj
  rw [getLsbD_limb, BitVec.getLsbD_shiftLeft, Reference.bitsUpLimb]
  split
  case isTrue hbottom =>
    subst hbottom
    rw [BitVec.getLsbD_shiftLeft, getLsbD_limb]
    grind
  case isFalse hbottom =>
    rw [BitVec.getLsbD_or, BitVec.getLsbD_shiftLeft, BitVec.getLsbD_ushiftRight, getLsbD_limb, getLsbD_limb]
    by_cases hsame : n ≤ j
    · -- bit `j - n` of limb `i`
      grind
    · -- bit `32 - n + j` of limb `i - 1`
      grind

/-- From bit `32 - n` on a limb shifted down is filled from the limb above, if there is one, and with zeros otherwise. -/
theorem bitsDownLimb_eq_limb (a : Limb128) {n i : Nat} (hn : n ≤ 31) :
    Reference.bitsDownLimb a n i = limb (a >>> n) i := by
  apply BitVec.eq_of_getLsbD_eq
  intro j hj
  rw [getLsbD_limb, BitVec.getLsbD_ushiftRight, Reference.bitsDownLimb]
  split
  case isTrue htop =>
    subst htop
    rw [BitVec.getLsbD_ushiftRight, getLsbD_limb]
    grind
  case isFalse htop =>
    rw [BitVec.getLsbD_or, BitVec.getLsbD_shiftLeft, BitVec.getLsbD_ushiftRight, getLsbD_limb, getLsbD_limb]
    by_cases hsame : n + j < 32
    · -- bit `n + j` of limb `i`
      grind
    · -- bit `j - (32 - n)` of limb `i + 1`
      grind

/-- Settles O12: for a count of 0 the views are the operand, for another one they have the limbs of the shifts. -/
theorem limbViewsAreBitShifts : Obligations.LimbViewsAreBitShifts := by
  intro a n hn
  rw [shiftBitsUp_eq_shiftLeft, shiftBitsDown_eq_ushiftRight, Reference.shiftBitsUp, Reference.shiftBitsDown]
  split
  case isTrue hzero =>
    rw [hzero]
    exact ⟨(BitVec.shiftLeft_zero a).symm, (BitVec.ushiftRight_zero a).symm⟩
  case isFalse =>
    exact ⟨ofLimbs_eq_of_limb_eq (Reference.bitsUpLimb a n) fun _ hi => bitsUpLimb_eq_limb a hn hi,
      ofLimbs_eq_of_limb_eq (Reference.bitsDownLimb a n) fun _ _ => bitsDownLimb_eq_limb a hn⟩

/-! ## Shifting back, and shifting twice (R112) -/

/-- Up and back down, the bits pushed out at the top are lost. -/
theorem shiftDown_shiftUp_toNat (a : Limb128) {n : Nat} (hn : n ≤ 128) :
    (shiftDown (shiftUp a n) n).toNat = a.toNat % 2 ^ (128 - n) := by
  have hsplit : 2 ^ 128 = 2 ^ (128 - n) * 2 ^ n := by rw [← Nat.pow_add, Nat.sub_add_cancel hn]
  rw [shiftDown_toNat _ _ hn, shiftUp_toNat _ _ hn, hsplit, Nat.mul_mod_mul_right,
    Nat.mul_div_cancel _ (Nat.two_pow_pos n)]

/-- Down and back up, the bits pushed out at the bottom are lost. -/
theorem shiftUp_shiftDown_toNat (a : Limb128) {n : Nat} (hn : n ≤ 128) :
    (shiftUp (shiftDown a n) n).toNat = a.toNat - a.toNat % 2 ^ n := by
  rw [shiftUp_toNat _ _ hn, shiftDown_toNat _ _ hn, Nat.div_mul_self_eq_mod_sub_self]
  exact Nat.mod_eq_of_lt (Nat.lt_of_le_of_lt (Nat.sub_le _ _) a.isLt)

theorem shiftUp_shiftUp (a : Limb128) {m n : Nat} (h : m + n ≤ 128) : shiftUp (shiftUp a m) n = shiftUp a (m + n) := by
  apply BitVec.eq_of_toNat_eq
  rw [shiftUp_toNat _ n (by omega), shiftUp_toNat a m (by omega), shiftUp_toNat a _ h, Nat.mod_mul_mod, Nat.mul_assoc,
    ← Nat.pow_add]

theorem shiftDown_shiftDown (a : Limb128) {m n : Nat} (h : m + n ≤ 128) :
    shiftDown (shiftDown a m) n = shiftDown a (m + n) := by
  apply BitVec.eq_of_toNat_eq
  rw [shiftDown_toNat _ n (by omega), shiftDown_toNat a m (by omega), shiftDown_toNat a _ h, Nat.div_div_eq_div_mul,
    ← Nat.pow_add]

/-- Settles O15, on the numbers the shifts hold. -/
theorem shiftsCompose : Obligations.ShiftsCompose := fun a _ _ _ hn =>
  ⟨shiftDown_shiftUp_toNat a hn, shiftUp_shiftDown_toNat a hn, fun h => ⟨shiftUp_shiftUp a h, shiftDown_shiftDown a h⟩⟩

end Sys2Proof.Proofs

/-! # Proofs: the leading-zero counter and the comparator (43_lzc_comparator.md)

What the three operations of the unit answer, and what the limb count and the bit count say of the value they count in. -/

namespace Sys2Proof.Proofs

open Machine Statement

/-! ## The limb count (R126, R130 (a)) -/

/-- Every limb above the one the count stops at is zero, and that one, if there is one, is not. -/
theorem leadingZeroLimbs_spec (a : Limb128) :
    leadingZeroLimbs a ≤ 4 ∧ (∀ i < leadingZeroLimbs a, limb a (3 - i) = 0) ∧
      (leadingZeroLimbs a < 4 → limb a (3 - leadingZeroLimbs a) ≠ 0) := by
  obtain ⟨hz, h3⟩ | ⟨hz, h3, h2⟩ | ⟨hz, h3, h2, h1⟩ | ⟨hz, h3, h2, h1, h0⟩ | ⟨hz, h3, h2, h1, h0⟩ :=
    leadingZeroLimbs_cases a
  all_goals rw [hz]
  · exact ⟨by decide, fun i hi => absurd hi (Nat.not_lt_zero i), fun _ => h3⟩
  · exact ⟨by decide, fun i hi => by interval_cases i; exact h3, fun _ => h2⟩
  · exact ⟨by decide, fun i hi => by interval_cases i <;> assumption, fun _ => h1⟩
  · exact ⟨by decide, fun i hi => by interval_cases i <;> assumption, fun _ => h0⟩
  · exact ⟨by decide, fun i hi => by interval_cases i <;> assumption, fun h => absurd h (by decide)⟩

/-- The value fits the limbs that are left, and reaches the highest of them. -/
theorem leadingZeroLimbs_bounds (a : Limb128) :
    a.toNat < 2 ^ (32 * (4 - leadingZeroLimbs a)) ∧
      (leadingZeroLimbs a < 4 → 2 ^ (32 * (3 - leadingZeroLimbs a)) ≤ a.toNat) := by
  have hvalue := toNat_eq_limbs a
  have hcases := leadingZeroLimbs_cases a
  simp only [limb_ne_zero, limb_eq_zero] at hcases
  obtain ⟨hz, h3⟩ | ⟨hz, h3, h2⟩ | ⟨hz, h3, h2, h1⟩ | ⟨hz, h3, h2, h1, h0⟩ | ⟨hz, h3, h2, h1, h0⟩ := hcases
  all_goals
    rw [hz]
    omega

/-- Settles O17: zero has no non-zero limb, and another value is held by the limbs from its highest non-zero one down. -/
theorem leadingZeroLimbsBoundValue : Obligations.LeadingZeroLimbsBoundValue := fun a =>
  ⟨leadingZeroLimbs_eq_four a, leadingZeroLimbs_bounds a⟩

/-! ## What the unit answers (R126 to R128) -/

theorem int32_natCast (n : Nat) : int32 n = BitVec.ofNat 32 n := BitVec.ofInt_natCast 32 n

theorem answer_lzl (a : Limb128) : answer (.lzl a) = ⟨0, 0, BitVec.ofNat 32 (leadingZeroLimbs a), false⟩ := by
  simp only [answer, lzlRsp, int32_natCast]

theorem answer_hsb_zero : answer (.hsb 0) = ⟨0, 0, 0xFFFFFFFF#32, false⟩ := by
  simp only [answer, hsbRsp, BitVec.ofNat_eq_ofNat, highestSetBit_zero]
  rfl

theorem answer_hsb_of_index {x : Limb} {k : Nat} (h : highestSetBit x = k) :
    answer (.hsb x) = ⟨0, 0, BitVec.ofNat 32 k, false⟩ := by
  simp only [answer, hsbRsp, h, int32_natCast]

theorem answer_cmp (a b : Limb128) :
    answer (.cmp a b) =
      ⟨0, 0, if b.toNat < a.toNat then 1#32 else if a.toNat < b.toNat then 0xFFFFFFFF#32 else 0#32, false⟩ := by
  simp only [answer, cmpRsp, compare3_eq, apply_ite int32]
  rfl

/-- Settles O16: the answer is the limb count. -/
theorem lzlCountsLeadingZeroLimbs : Obligations.LzlCountsLeadingZeroLimbs :=
  ⟨fun a s => ⟨leadingZeroLimbs a, exec_gives rfl (answer_lzl a) s, leadingZeroLimbs_spec a⟩,
    runsAs_uncounted .LZL rfl⟩

/-- Settles O18: the scan finds no bit of zero, and the highest one of any other limb. -/
theorem hsbGivesBitIndex : Obligations.HsbGivesBitIndex := by
  refine ⟨fun s => exec_gives rfl answer_hsb_zero s, fun x s hx => ?_, runsAs_uncounted .HSB rfl⟩
  obtain ⟨k, hindex, hle, hset, hlt⟩ := highestSetBit_spec x hx
  exact ⟨k, hle, hset, hlt, exec_gives rfl (answer_hsb_of_index hindex) s⟩

/-- Settles O19: comparing the limbs from the highest down compares the values. -/
theorem cmpOrdersValues : Obligations.CmpOrdersValues :=
  ⟨fun a b s => exec_gives rfl (answer_cmp a b) s, runsAs_uncounted .CMP rfl⟩

/-! ## The bit count (R129, R130 (d)) -/

/-- An amount that loses no bit is at most one that sets bit 127: a single place further pushes that bit out. -/
theorem le_of_sets_top_bit {v j k : Nat} (htop : 2 ^ 127 ≤ v * 2 ^ j) (hfits : v * 2 ^ k < 2 ^ 128) : k ≤ j := by
  by_contra hlt
  have hpow : 2 ^ (j + 1) ≤ 2 ^ k := Nat.pow_le_pow_right (by decide) (Nat.lt_of_not_le hlt)
  have hout : 2 ^ 128 ≤ v * 2 ^ k := calc
    2 ^ 128 = 2 ^ 127 * 2 := Nat.pow_succ 2 127
    _ ≤ v * 2 ^ j * 2 := Nat.mul_le_mul_right 2 htop
    _ = v * 2 ^ (j + 1) := by rw [Nat.pow_succ, Nat.mul_assoc]
    _ ≤ v * 2 ^ k := Nat.mul_le_mul_left v hpow
  exact Nat.not_lt.mpr hout hfits

/-- Settles O20: the bit count is such an amount, and two of them are each at most the other. -/
theorem leadingZeroBitsNormalise : Obligations.LeadingZeroBitsNormalise := by
  intro a ha
  have hne : a.toNat ≠ 0 := fun h => ha (BitVec.eq_of_toNat_eq h)
  obtain ⟨hle, htop, hfits⟩ := leadingZeroBits_spec a hne
  refine ⟨hle, fun k _ => ⟨fun ⟨hktop, hkfits⟩ => ?_, fun hk => hk ▸ ⟨htop, hfits⟩⟩⟩
  exact Nat.le_antisymm (le_of_sets_top_bit htop hkfits) (le_of_sets_top_bit hktop hfits)

end Sys2Proof.Proofs

/-! # Proofs: the divider (44_divider.md)

What the operation answers, that its answers recompose the dividend, and the long division as arithmetic on lists of
digits: every step lowers the dividend list by the divisor times its quotient digit. -/

namespace Sys2Proof.Proofs

open Machine Statement Reference

/-! ## What the unit answers (R141, R142) -/

theorem answer_divmod_of_ne_zero (a : Limb128) {b : Limb128} (h : b.toNat ≠ 0) :
    answer (.divmod a b) = ⟨field (a.toNat / b.toNat), field (a.toNat % b.toNat), 0, false⟩ := by
  obtain ⟨hquot, hrem, hflag⟩ := divmod_of_ne a b h
  simp only [answer, divmodRsp, ofWide_eq_field hquot, ofWide_eq_field hrem, hflag]

theorem divmod_zero (a : Limb128) : divmod a 0 = (BitVec.allOnes 128, BitVec.allOnes 128, true) :=
  if_pos rfl

theorem answer_divmod_zero (a : Limb128) :
    answer (.divmod a 0) = ⟨field (2 ^ 128 - 1), field (2 ^ 128 - 1), 0, true⟩ := by
  simp only [answer, divmodRsp, divmod_zero, ofWide_eq_field BitVec.toNat_allOnes]

/-- Settles O21, by whether the divisor is zero. -/
theorem divmodGivesQuotientAndRemainder : Obligations.DivmodGivesQuotientAndRemainder :=
  ⟨fun a _ s h => exec_gives rfl (answer_divmod_of_ne_zero a h) s, fun a s => exec_gives rfl (answer_divmod_zero a) s,
    runsAs_uncounted .DIVMOD rfl⟩

/-! ## Recomposing the dividend (R144) -/

/-- A sum that is the number of a 128-bit value is answered with that value and no carry. -/
theorem answer_addf_of_sum_eq {a x y : Limb128} (h : x.toNat + y.toNat = a.toNat) :
    answer (.addf x y) = ⟨Bus.ofWide a, 0, 0, false⟩ := by
  have hno : a.toNat / 2 ^ 128 ≠ 1 := by omega
  rw [answer_addf, h, Nat.mod_eq_of_lt a.isLt, ← ofWide_eq_field rfl, decide_eq_false hno]

theorem answer_cmp_of_lt {a b : Limb128} (h : a.toNat < b.toNat) :
    answer (.cmp a b) = ⟨0, 0, 0xFFFFFFFF#32, false⟩ := by
  rw [answer_cmp, if_neg (Nat.not_lt_of_lt h), if_pos h]

/-- A product below 2^128 is its own low half. -/
theorem multiplyLo_toNat_of_lt {a b : Limb128} (h : a.toNat * b.toNat < 2 ^ 128) :
    (multiplyLo a b).toNat = a.toNat * b.toNat :=
  (multiplyLo_toNat a b).trans (Nat.mod_eq_of_lt h)

theorem wide_divmod_X (a b : Limb128) : Bus.wide (answer (.divmod a b)).X = (divmod a b).1 := wide_ofWide _

theorem wide_divmod_Y (a b : Limb128) : Bus.wide (answer (.divmod a b)).Y = (divmod a b).2.1 := wide_ofWide _

theorem wide_mullo_X (a b : Limb128) : Bus.wide (answer (.mullo a b)).X = multiplyLo a b := wide_ofWide _

/-- Settles O22: the parts add up to the dividend, so neither the product nor the sum leaves 128 bits. -/
theorem divmodRecomposesDividend : Obligations.DivmodRecomposesDividend := by
  intro a b hb
  have hne : b.toNat ≠ 0 := BitVec.toNat_ne.mp hb
  obtain ⟨hquot, hrem, -⟩ := divmod_of_ne a b hne
  have hsum : (divmod a b).1.toNat * b.toNat + (divmod a b).2.1.toNat = a.toNat := by
    rw [hquot, hrem]
    exact Nat.div_add_mod' _ _
  have hlow : (multiplyLo (divmod a b).1 b).toNat = (divmod a b).1.toNat * b.toNat := multiplyLo_toNat_of_lt (by omega)
  have hlt : (divmod a b).2.1.toNat < b.toNat := hrem ▸ Nat.mod_lt _ (Nat.pos_of_ne_zero hne)
  simp only [wide_divmod_X, wide_divmod_Y, wide_mullo_X]
  exact ⟨answer_addf_of_sum_eq (by rw [hlow, hsum]), by rw [answer_cmp_of_lt hlt], hsum⟩

/-! ## Digits of a number, and a digit of a list -/

theorem base_pos : 0 < base := Nat.two_pow_pos 16

theorem base_pow_pos (n : Nat) : 0 < base ^ n := Nat.pow_pos base_pos

theorem isDigits_toDigits (n v : Nat) : IsDigits n (toDigits n v) := by
  induction n generalizing v with
  | zero => exact isDigits_nil
  | succ n ih => exact isDigits_cons.mpr ⟨Nat.mod_lt _ base_pos, ih _⟩

theorem value_toDigits (n v : Nat) : value (toDigits n v) = v % base ^ n := by
  induction n generalizing v with
  | zero => rw [toDigits, value, Nat.pow_zero, Nat.mod_one]
  | succ n ih => rw [toDigits, value, ih, Nat.pow_succ', Nat.mod_mul]

theorem value_toDigits_of_lt {n v : Nat} (h : v < base ^ n) : value (toDigits n v) = v :=
  (value_toDigits n v).trans (Nat.mod_eq_of_lt h)

theorem value_singleton (d : Nat) : value [d] = d := by simp [value]

/-- Above the last digit both sides are 0. -/
theorem IsDigits.getD_eq {n : Nat} {l : List Nat} (h : IsDigits n l) (i : Nat) :
    l.getD i 0 = value l / base ^ i % base := by
  induction n generalizing l i with
  | zero =>
    obtain rfl := h.eq_nil
    simp [value]
  | succ n ih =>
    obtain ⟨d, ds, rfl, hd, hds⟩ := h.exists_cons
    cases i with
    | zero => rw [List.getD_cons_zero, value, Nat.pow_zero, Nat.div_one, Nat.add_mul_mod_self_left, Nat.mod_eq_of_lt hd]
    | succ i =>
      have hrest : (d + base * value ds) / base = value ds := by
        rw [Nat.add_mul_div_left _ _ base_pos, Nat.div_eq_of_lt hd, Nat.zero_add]
      rw [List.getD_cons_succ, ih hds, value, Nat.pow_succ', ← Nat.div_div_eq_div_mul, hrest]

theorem div_pow_lt_base {v m : Nat} (h : v < base ^ (m + 1)) : v / base ^ m < base :=
  Nat.div_lt_of_lt_mul (by rwa [← Nat.pow_succ])

/-- The highest of `m + 1` digits. -/
theorem IsDigits.getD_last {m : Nat} {l : List Nat} (h : IsDigits (m + 1) l) : l.getD m 0 = value l / base ^ m := by
  rw [h.getD_eq, Nat.mod_eq_of_lt (div_pow_lt_base h.value_lt)]

/-! ## Normalising (R143) -/

/-- The digits counted hold the divisor, and the highest of them is not zero. -/
theorem digitCount_spec {v k : Nat} (h0 : v ≠ 0) (h : v < base ^ k) :
    ∃ m < k, digitCount v k = m + 1 ∧ base ^ m ≤ v ∧ v < base ^ (m + 1) := by
  induction k with
  | zero => exact absurd (Nat.lt_one_iff.mp h) h0
  | succ k ih =>
    rw [digitCount]
    split
    case isTrue htop =>
      have hle : base ^ k ≤ v := Nat.le_of_not_lt fun hlt => htop (by rw [Nat.div_eq_of_lt hlt, Nat.zero_mod])
      exact ⟨k, k.lt_succ_self, rfl, hle, h⟩
    case isFalse htop =>
      have htop_lt : v / base ^ k < base := div_pow_lt_base h
      have hzero : v / base ^ k = 0 := (Nat.mod_eq_of_lt htop_lt).symm.trans (not_not.mp htop)
      obtain ⟨m, hm, hspec⟩ := ih ((Nat.div_eq_zero_iff_lt (base_pow_pos _)).mp hzero)
      exact ⟨m, Nat.lt_succ_of_lt hm, hspec⟩

/-- The shift brings the highest digit to `2^15` at least and loses no bit of it. -/
theorem divShift_spec {v m : Nat} (hle : base ^ m ≤ v) (hlt : v < base ^ (m + 1)) :
    divShift v (m + 1) ≤ 15 ∧ 2 ^ 15 * base ^ m ≤ v * 2 ^ divShift v (m + 1) ∧
      v * 2 ^ divShift v (m + 1) < base ^ (m + 1) := by
  have hpos : 0 < base ^ m := base_pow_pos m
  have htop_ne : v / base ^ m ≠ 0 := (Nat.div_pos hle hpos).ne'
  have htop_lt : v / base ^ m < base := div_pow_lt_base hlt
  obtain ⟨k, hindex, hk, hset, hbelow⟩ := highestBelow_spec (v / base ^ m) 16 htop_ne htop_lt
  have hshift : divShift v (m + 1) = 15 - k := by
    rw [divShift, Nat.add_sub_cancel, Nat.mod_eq_of_lt htop_lt, hindex, Option.getD_some]
  have hlow : 2 ^ k * base ^ m ≤ v := (Nat.le_div_iff_mul_le hpos).mp hset
  have hhigh : v < 2 ^ (k + 1) * base ^ m := (Nat.div_lt_iff_lt_mul hpos).mp hbelow
  have hpow : 2 ^ k * 2 ^ (15 - k) = 2 ^ 15 := by rw [← Nat.pow_add]; congr 1; omega
  have hbase : base = 2 * 2 ^ 15 := rfl
  rw [hshift]
  refine ⟨Nat.sub_le _ _, ?_, ?_⟩
  · calc 2 ^ 15 * base ^ m = 2 ^ k * base ^ m * 2 ^ (15 - k) := by rw [← hpow]; ring
      _ ≤ v * 2 ^ (15 - k) := Nat.mul_le_mul_right _ hlow
  · calc v * 2 ^ (15 - k) < 2 ^ (k + 1) * base ^ m * 2 ^ (15 - k) :=
        Nat.mul_lt_mul_of_pos_right hhigh (Nat.two_pow_pos _)
      _ = base ^ (m + 1) := by rw [Nat.pow_succ base, hbase, ← hpow]; ring

/-! ## One quotient digit (R143) -/

/-- A trial digit that is large enough comes down to the quotient. -/
theorem correct_eq {V W q : Nat} (hV : 0 < V) (hq : W / V ≤ q) : correct V W q = W / V := by
  induction q with
  | zero => exact (Nat.le_zero.mp hq).symm
  | succ q ih =>
    rw [correct]
    split
    case isTrue hover => exact ih (Nat.le_of_lt_succ ((Nat.div_lt_iff_lt_mul hV).mpr hover))
    case isFalse hfits => exact Nat.le_antisymm ((Nat.le_div_iff_mul_le hV).mpr (Nat.le_of_not_lt hfits)) hq

/-- Cutting the same low digits off the window and the divisor does not make the quotient smaller. -/
theorem div_le_div_cut {V W B : Nat} (hB : 0 < B) (hBV : B ≤ V) : W / V ≤ W / B / (V / B) := by
  rw [Nat.le_div_iff_mul_le (Nat.div_pos hBV hB), Nat.le_div_iff_mul_le hB, Nat.mul_assoc]
  calc W / V * (V / B * B) ≤ W / V * V := Nat.mul_le_mul_left _ (Nat.div_mul_le_self V B)
    _ ≤ W := Nat.div_mul_le_self W V

/-! ## The window (R143) -/

/-- Two neighbouring digits with none above them. -/
theorem IsDigits.two_getD {L : Nat} {un : List Nat} (h : IsDigits L un) {i : Nat}
    (hlt : value un < base ^ (i + 1 + 1)) :
    un.getD (i + 1) 0 * base + un.getD i 0 = value un / base ^ i := by
  have hhigh : value un / base ^ i / base < base := by
    rw [Nat.div_div_eq_div_mul, ← Nat.pow_succ]
    exact div_pow_lt_base hlt
  rw [h.getD_eq, h.getD_eq, Nat.pow_succ, ← Nat.div_div_eq_div_mul, Nat.mod_eq_of_lt hhigh]
  exact Nat.div_add_mod' _ _

theorem IsDigits.take_drop {m n : Nat} {l : List Nat} (h : IsDigits (m + n) l) :
    IsDigits m (l.take m) ∧ IsDigits n (l.drop m) := by
  have hlen := h.1
  exact ⟨⟨by rw [List.length_take]; omega, fun d hd => h.2 d (List.mem_of_mem_take hd)⟩,
    ⟨by rw [List.length_drop]; omega, fun d hd => h.2 d (List.mem_of_mem_drop hd)⟩⟩

/-- A window of `n` digits at position `j`, with no digit above it, is the list without its low `j` digits. -/
theorem value_window {L j n : Nat} {un : List Nat} (h : IsDigits L un) (hL : j + n ≤ L)
    (hlt : value un < base ^ (j + n)) : value ((un.drop j).take n) = value un / base ^ j := by
  obtain ⟨k, rfl⟩ := Nat.exists_eq_add_of_le hL
  rw [Nat.add_assoc] at h
  have hfits : value un / base ^ j < base ^ n := Nat.div_lt_of_lt_mul (Nat.pow_add base j n ▸ hlt)
  rw [(value_take_drop h.take_drop.2).1, (value_take_drop h).2, Nat.mod_eq_of_lt hfits]

/-- Replacing that window keeps the low `j` digits. -/
theorem replace_window {L j n : Nat} {un ws : List Nat} (h : IsDigits L un) (hws : IsDigits n ws) (hL : j + n ≤ L)
    (hlt : value un < base ^ (j + n)) :
    IsDigits L (un.take j ++ ws ++ un.drop (j + n)) ∧
      value (un.take j ++ ws ++ un.drop (j + n)) = value un % base ^ j + base ^ j * value ws := by
  obtain ⟨k, rfl⟩ := Nat.exists_eq_add_of_le hL
  have habove : value (un.drop (j + n)) = 0 := by rw [(value_take_drop h).2, Nat.div_eq_of_lt hlt]
  obtain ⟨-, hhigh⟩ := h.take_drop
  rw [Nat.add_assoc] at h
  obtain ⟨hlow, -⟩ := h.take_drop
  refine ⟨(hlow.append hws).append hhigh, ?_⟩
  rw [value_append, value_append, habove, (value_take_drop h).1, hlow.1, Nat.mul_zero, Nat.add_zero]

/-! ## The loop (R143) -/

section
variable {L m j : Nat} {vn un : List Nat} (hvn : IsDigits (m + 1) vn) (hV : base ^ m ≤ value vn)
include hvn

theorem lt_pow_of_lt_divisor (hlt : value un < value vn * base ^ (j + 1)) : value un < base ^ (j + (m + 1 + 1)) := calc
  value un < value vn * base ^ (j + 1) := hlt
  _ ≤ base ^ (m + 1) * base ^ (j + 1) := Nat.mul_le_mul_right _ hvn.value_lt.le
  _ = base ^ (j + (m + 1 + 1)) := by ring

include hV

/-- The highest divisor digit is not zero and the window is below the divisor times the base, so the digit is the quotient
of the window by the divisor, and the remainder takes the window's place. -/
theorem divStep_eq (hun : IsDigits L un) (hL : j + (m + 1 + 1) ≤ L) (hlt : value un < value vn * base ^ (j + 1)) :
    divStep (m + 1) vn j un = (value un / base ^ j / value vn,
      un.take j ++ toDigits (m + 1 + 1) (value un / base ^ j % value vn) ++ un.drop (j + (m + 1 + 1))) := by
  have hpos : 0 < base ^ m := base_pow_pos m
  have hVpos : 0 < value vn := Nat.lt_of_lt_of_le hpos hV
  have hfits : value un < base ^ (j + (m + 1 + 1)) := lt_pow_of_lt_divisor hvn hlt
  have hwindow : value ((un.drop j).take (m + 1 + 1)) = value un / base ^ j := value_window hun hL hfits
  have htop : un.getD (j + (m + 1)) 0 * base + un.getD (j + (m + 1) - 1) 0 = value un / base ^ j / base ^ m := by
    rw [Nat.div_div_eq_div_mul, ← Nat.pow_add]
    exact hun.two_getD hfits
  have hdigit : value un / base ^ j / value vn < base := by
    rw [Nat.div_div_eq_div_mul, Nat.mul_comm]
    exact Nat.div_lt_of_lt_mul (by rwa [Nat.mul_assoc, ← Nat.pow_succ])
  have htrial : value un / base ^ j / value vn ≤
      min (value un / base ^ j / base ^ m / (value vn / base ^ m)) (base - 1) :=
    le_min (div_le_div_cut hpos hV) (Nat.le_sub_one_of_lt hdigit)
  simp only [divStep, Nat.add_sub_cancel m 1, htop, hwindow, hvn.getD_last, correct_eq hVpos htrial,
    ← Nat.mod_eq_sub_div_mul]
  rfl

/-- A step takes the divisor times its digit, at the digit's position, off the dividend list. -/
theorem divStep_spec (hun : IsDigits L un) (hL : j + (m + 1 + 1) ≤ L) (hlt : value un < value vn * base ^ (j + 1)) :
    IsDigits L (divStep (m + 1) vn j un).2 ∧ value (divStep (m + 1) vn j un).2 < value vn * base ^ j ∧
      value un = value (divStep (m + 1) vn j un).2 + value vn * (base ^ j * (divStep (m + 1) vn j un).1) := by
  have hVpos : 0 < value vn := Nat.pos_of_mul_pos_right (Nat.zero_lt_of_lt hlt)
  have hrem : value un / base ^ j % value vn < value vn := Nat.mod_lt _ hVpos
  have hfits : value un / base ^ j % value vn < base ^ (m + 1 + 1) := calc
    _ < value vn := hrem
    _ < base ^ (m + 1) := hvn.value_lt
    _ ≤ base ^ (m + 1 + 1) := Nat.pow_le_pow_right base_pos (Nat.le_succ _)
  obtain ⟨hdigits, hvalue⟩ := replace_window hun (isDigits_toDigits (m + 1 + 1) (value un / base ^ j % value vn)) hL
    (lt_pow_of_lt_divisor hvn hlt)
  rw [value_toDigits_of_lt hfits] at hvalue
  rw [divStep_eq hvn hV hun hL hlt]
  refine ⟨hdigits, ?_, ?_⟩
  · calc _ = value un % base ^ j + base ^ j * (value un / base ^ j % value vn) := hvalue
      _ < base ^ j * (value un / base ^ j % value vn + 1) := by
        rw [Nat.mul_add_one, Nat.add_comm]
        exact Nat.add_lt_add_left (Nat.mod_lt _ (base_pow_pos _)) _
      _ ≤ base ^ j * value vn := Nat.mul_le_mul_left _ hrem
      _ = value vn * base ^ j := Nat.mul_comm _ _
  · have hlow := Nat.mod_add_div (value un) (base ^ j)
    have hwindow := Nat.mod_add_div (value un / base ^ j) (value vn)
    rw [hvalue]
    linear_combination -hlow - base ^ j * hwindow

/-- From a dividend list below the divisor at position `j`, `j` steps leave the remainder and give the `j` digits of the
quotient. -/
theorem divLoop_spec (hun : IsDigits L un) (hL : j + (m + 1) ≤ L) (hlt : value un < value vn * base ^ j) :
    (divLoop (m + 1) vn j un).2.length = j ∧ value (divLoop (m + 1) vn j un).1 = value un % value vn ∧
      value (divLoop (m + 1) vn j un).2 = value un / value vn := by
  induction j generalizing un with
  | zero =>
    rw [Nat.pow_zero, Nat.mul_one] at hlt
    exact ⟨rfl, (Nat.mod_eq_of_lt hlt).symm, (Nat.div_eq_of_lt hlt).symm⟩
  | succ j ih =>
    have hVpos : 0 < value vn := Nat.pos_of_mul_pos_right (Nat.zero_lt_of_lt hlt)
    obtain ⟨hdigits, hbelow, hvalue⟩ := divStep_spec hvn hV hun (by omega) hlt
    obtain ⟨hlen, hrem, hquot⟩ := ih hdigits (by omega) hbelow
    refine ⟨?_, ?_, ?_⟩
    · rw [divLoop, List.length_append, hlen, List.length_singleton]
    · rw [divLoop, hrem, hvalue, Nat.add_mul_mod_self_left]
    · rw [divLoop, value_append, hlen, hquot, hvalue, Nat.add_mul_div_left _ _ hVpos, value_singleton]

end

/-- With the loop bounds of the listing, on the digits of two numbers. -/
theorem divLoop_toDigits {m U V : Nat} (hm : m < 8) (hV : base ^ m ≤ V) (hVlt : V < base ^ (m + 1))
    (hU : U < V * base ^ (8 - (m + 1) + 1)) :
    value (divLoop (m + 1) (toDigits (m + 1) V) (8 - (m + 1) + 1) (toDigits 9 U)).1 = U % V ∧
      value (divLoop (m + 1) (toDigits (m + 1) V) (8 - (m + 1) + 1) (toDigits 9 U)).2 = U / V := by
  have hposition : m + 1 + (8 - (m + 1) + 1) = 9 := by omega
  have hUlt : U < base ^ 9 := calc
    U < V * base ^ (8 - (m + 1) + 1) := hU
    _ ≤ base ^ (m + 1) * base ^ (8 - (m + 1) + 1) := Nat.mul_le_mul_right _ hVlt.le
    _ = base ^ 9 := by rw [← Nat.pow_add, hposition]
  have hvn := value_toDigits_of_lt hVlt
  have hun := value_toDigits_of_lt hUlt
  obtain ⟨-, hrem, hquot⟩ := divLoop_spec (isDigits_toDigits (m + 1) V) (hvn.symm ▸ hV) (isDigits_toDigits 9 U)
    (j := 8 - (m + 1) + 1) (by omega) (by rwa [hvn, hun])
  rw [hvn, hun] at hrem hquot
  exact ⟨hrem, hquot⟩

/-- A shifted 128-bit dividend is below the normalised divisor at the loop's first position. -/
theorem shifted_dividend_lt {a V m s : Nat} (ha : a < 2 ^ 128) (hm : m < 8) (hs : s ≤ 15)
    (hV : 2 ^ 15 * base ^ m ≤ V) :
    a * 2 ^ s < V * base ^ (8 - (m + 1) + 1) := by
  have hposition : m + (8 - (m + 1) + 1) = 8 := by omega
  calc a * 2 ^ s < 2 ^ 128 * 2 ^ s := Nat.mul_lt_mul_of_pos_right ha (Nat.two_pow_pos s)
    _ ≤ 2 ^ 128 * 2 ^ 15 := Nat.mul_le_mul_left _ (Nat.pow_le_pow_right (by decide) hs)
    _ = 2 ^ 15 * base ^ 8 := by decide
    _ = 2 ^ 15 * base ^ m * base ^ (8 - (m + 1) + 1) := by rw [Nat.mul_assoc, ← Nat.pow_add, hposition]
    _ ≤ V * base ^ (8 - (m + 1) + 1) := Nat.mul_le_mul_right _ hV

/-- Settles O23: both operands are shifted alike, so the quotient is theirs and the remainder comes out shifted. -/
theorem longDivisionComputesDivmod : Obligations.LongDivisionComputesDivmod := by
  intro a b hb
  have hne : b.toNat ≠ 0 := BitVec.toNat_ne.mp hb
  obtain ⟨m, hm, hcount, hle, hlt⟩ := digitCount_spec (k := 8) hne b.isLt
  obtain ⟨hs, hnorm, hVlt⟩ := divShift_spec hle hlt
  have hspos := Nat.two_pow_pos (divShift b.toNat (m + 1))
  obtain ⟨hrem, hquot⟩ := divLoop_toDigits hm (hle.trans (Nat.le_mul_of_pos_right _ hspos)) hVlt
    (shifted_dividend_lt a.isLt hm hs hnorm)
  rw [Nat.mul_mod_mul_right] at hrem
  rw [Nat.mul_div_mul_right _ _ hspos] at hquot
  simp only [longDivision, hcount, hrem, hquot, Nat.mul_div_cancel _ hspos]

end Sys2Proof.Proofs

/-! # Proofs: the re-encoder (45_reencoder.md)

The digits of a value are the halves of its limbs, so splitting and joining move no bit. -/

namespace Sys2Proof.Proofs

open Machine Statement

/-! ## Digits as halves of limbs (R10, R11) -/

theorem digit_even_toNat (a : Limb128) (i : Nat) : (digit a (2 * i)).toNat = (limb a i).toNat % 2 ^ 16 := by
  have hindex : 16 * (2 * i) = 32 * i := by omega
  rw [digit_toNat, limb_toNat, hindex]
  omega

theorem digit_odd_toNat (a : Limb128) (i : Nat) : (digit a (2 * i + 1)).toNat = (limb a i).toNat / 2 ^ 16 := by
  have hindex : 16 * (2 * i + 1) = 32 * i + 16 := by omega
  rw [digit_toNat, limb_toNat, hindex, Nat.pow_add, ← Nat.div_div_eq_div_mul]
  omega

theorem limb_toNat_eq_digits (a : Limb128) (i : Nat) :
    (limb a i).toNat = (digit a (2 * i)).toNat + (digit a (2 * i + 1)).toNat * 2 ^ 16 := by
  rw [digit_even_toNat, digit_odd_toNat]
  exact (Nat.mod_add_div' _ _).symm

theorem joinDigits_digit (w : Limb128x16) (i : Nat) : joinDigits (digit w (2 * i)) (digit w (2 * i + 1)) = limb w i :=
  BitVec.eq_of_toNat_eq ((joinDigits_toNat _ _).trans (limb_toNat_eq_digits w i).symm)

/-! ## What the unit answers (R151 to R153) -/

/-- `from16` regroups the bits and changes none (R152, R153 (a)). -/
theorem from16_eq_self (w : Limb128x16) : from16 w = w := by
  rw [from16, joinDigits_digit w 0, joinDigits_digit w 1, joinDigits_digit w 2, joinDigits_digit w 3, ofLimbs_limbs]

theorem answer_to16 (a : Limb128) : answer (.to16 a) = ⟨Bus.ofWide a, 0, 0, false⟩ := by
  simp only [answer, to16Rsp, to16_eq_self]

theorem answer_from16 (w : Limb128x16) : answer (.from16 w) = ⟨Bus.ofWide w, 0, 0, false⟩ := by
  simp only [answer, from16Rsp, from16_eq_self]

/-- Settles O24: each operation answers its operand's own bits, whose digits are the halves of their limbs. -/
theorem reencoderSplitsAndJoins : Obligations.ReencoderSplitsAndJoins :=
  ⟨fun a s => ⟨a, exec_gives rfl (answer_to16 a) s, fun i _ => ⟨digit_even_toNat a i, digit_odd_toNat a i⟩⟩,
    fun w s => ⟨w, exec_gives rfl (answer_from16 w) s, fun i _ => limb_toNat_eq_digits w i⟩,
    runsAs_uncounted .TO16 rfl, runsAs_uncounted .FROM16 rfl⟩

/-- Settles O25: each operation keeps every bit, so one after the other does too. -/
theorem reencodingIsIdentityOnBits : Obligations.ReencodingIsIdentityOnBits := fun a =>
  ⟨congrArg Response.X (answer_to16 a), congrArg Response.X (answer_from16 a),
    (from16_eq_self _).trans (to16_eq_self a), (to16_eq_self _).trans (from16_eq_self a)⟩

end Sys2Proof.Proofs

/-! # Proofs: the aligner and the normaliser (46_aligner_normaliser.md)

EQEXP brings each operand from its own exponent to the larger one, the same way for both, which makes it symmetric; NORM
is the one shift that sets bit 127, and no shift where that bit is set already. -/

namespace Sys2Proof.Proofs

open Machine Statement

/-! ## An ExtFloat on a field (R49) -/

theorem ofExt_eq_extField {v : ExtFloat} {m f e : Nat} (hm : v.mant.toNat = m) (hf : v.flags.toNat = f)
    (he : v.exp.toNat = e) : Bus.ofExt v = extField m f e := by
  rw [ofExt_eq_ofNat, hm, hf, he, extField]

/-! ## The exponents after the zero special case (R161) -/

section

variable {v1 v2 : ExtFloat}

theorem alignExps_of_zero_zero (h1 : v1.mant = 0) (h2 : v2.mant = 0) :
    alignExps v1 v2 = (Config.zeroExp, Config.zeroExp) :=
  if_pos ⟨(isZero_iff _).mpr h1, (isZero_iff _).mpr h2⟩

theorem alignExps_of_zero_ne (h1 : v1.mant = 0) (h2 : v2.mant ≠ 0) : alignExps v1 v2 = (v2.exp, v2.exp) := by
  rw [alignExps, if_neg fun h => h2 ((isZero_iff _).mp h.2), if_pos ((isZero_iff _).mpr h1)]

theorem alignExps_of_ne_zero (h1 : v1.mant ≠ 0) (h2 : v2.mant = 0) : alignExps v1 v2 = (v1.exp, v1.exp) := by
  rw [alignExps, if_neg fun h => h1 ((isZero_iff _).mp h.1), if_neg fun h => h1 ((isZero_iff _).mp h),
    if_pos ((isZero_iff _).mpr h2)]

theorem alignExps_of_ne_ne (h1 : v1.mant ≠ 0) (h2 : v2.mant ≠ 0) : alignExps v1 v2 = (v1.exp, v2.exp) := by
  rw [alignExps, if_neg fun h => h1 ((isZero_iff _).mp h.1), if_neg fun h => h1 ((isZero_iff _).mp h),
    if_neg fun h => h2 ((isZero_iff _).mp h)]

end

/-- A zero mantissa makes the two exponents one; only two non-zero mantissas keep their own. -/
theorem alignExps_cases (v1 v2 : ExtFloat) :
    (∃ e, alignExps v1 v2 = (e, e) ∧ alignExps v2 v1 = (e, e)) ∨
      (alignExps v1 v2 = (v1.exp, v2.exp) ∧ alignExps v2 v1 = (v2.exp, v1.exp)) := by
  by_cases h1 : v1.mant = 0 <;> by_cases h2 : v2.mant = 0
  · exact .inl ⟨_, alignExps_of_zero_zero h1 h2, alignExps_of_zero_zero h2 h1⟩
  · exact .inl ⟨_, alignExps_of_zero_ne h1 h2, alignExps_of_ne_zero h2 h1⟩
  · exact .inl ⟨_, alignExps_of_ne_zero h1 h2, alignExps_of_zero_ne h2 h1⟩
  · exact .inr ⟨alignExps_of_ne_ne h1 h2, alignExps_of_ne_ne h2 h1⟩

theorem alignExps_swap (v1 v2 : ExtFloat) : alignExps v2 v1 = (alignExps v1 v2).swap := by
  obtain ⟨e, h, hswap⟩ | ⟨h, hswap⟩ := alignExps_cases v1 v2 <;> rw [h, hswap] <;> rfl

/-! ## Bringing one operand to an exponent (R162, R163) -/

/-- The operand `v`, taken to have exponent `e`, brought to the exponent `top`. -/
def alignTo (far : Limb128 → Nat → Limb128) (v : ExtFloat) (e top : Word32) : ExtFloat :=
  ⟨alignDown far v.mant (top.toNat - e.toNat), v.flags, top⟩

/-- The larger of two exponents. -/
def largerExp (e1 e2 : Word32) : Word32 := if e2.toNat ≤ e1.toNat then e1 else e2

theorem largerExp_toNat (e1 e2 : Word32) : (largerExp e1 e2).toNat = max e1.toNat e2.toNat := by
  rw [largerExp, apply_ite BitVec.toNat, max_comm, max_def]

theorem largerExp_comm (e1 e2 : Word32) : largerExp e1 e2 = largerExp e2 e1 :=
  BitVec.eq_of_toNat_eq (by rw [largerExp_toNat, largerExp_toNat, max_comm])

theorem largerExp_of_le {e1 e2 : Word32} (h : e2.toNat ≤ e1.toNat) : largerExp e1 e2 = e1 := if_pos h

theorem alignDown_distance_zero (far : Limb128 → Nat → Limb128) (m : Limb128) : alignDown far m 0 = m :=
  BitVec.eq_of_toNat_eq (by rw [alignDown_near far m 0 (Nat.zero_le _), Nat.pow_zero, Nat.div_one])

theorem alignTo_self (far : Limb128 → Nat → Limb128) (v : ExtFloat) (e : Word32) :
    alignTo far v e e = ⟨v.mant, v.flags, e⟩ := by
  rw [alignTo, Nat.sub_self, alignDown_distance_zero]

/-- Up to a distance of 128 the parameter does not matter (R163). -/
theorem alignTo_near (far far' : Limb128 → Nat → Limb128) (v : ExtFloat) {e top : Word32}
    (h : top.toNat ≤ e.toNat + 128) : alignTo far v e top = alignTo far' v e top := by
  have hdistance : top.toNat - e.toNat ≤ 128 := by omega
  rw [alignTo, alignTo, alignDown, alignDown, if_pos hdistance, if_pos hdistance]

/-- Both operands are brought to the larger exponent in the same way: for the one that has it the distance is 0. -/
theorem equalizeExp_eq (far : Limb128 → Nat → Limb128) {v1 v2 : ExtFloat} {e1 e2 : Word32}
    (he : alignExps v1 v2 = (e1, e2)) :
    equalizeExp far v1 v2 = (alignTo far v1 e1 (largerExp e1 e2), alignTo far v2 e2 (largerExp e1 e2)) := by
  by_cases h : e2.toNat ≤ e1.toNat
  · rw [largerExp_of_le h, alignTo_self]
    simp only [equalizeExp, he, if_pos h, alignTo]
  · have hlarger : largerExp e1 e2 = e2 := if_neg h
    rw [hlarger, alignTo_self]
    simp only [equalizeExp, he, if_neg h, alignTo]

theorem equalizeExp_swap (far : Limb128 → Nat → Limb128) (v1 v2 : ExtFloat) :
    equalizeExp far v2 v1 = (equalizeExp far v1 v2).swap := by
  rw [equalizeExp_eq far (alignExps_swap v1 v2), equalizeExp_eq far (Prod.mk.eta (p := alignExps v1 v2)).symm,
    largerExp_comm]
  rfl

/-- The results share their exponent, and each has its operand's flags (R162, R164 (a)). -/
theorem equalizeExp_exp_flags (far : Limb128 → Nat → Limb128) (v1 v2 : ExtFloat) :
    (equalizeExp far v1 v2).1.exp = (equalizeExp far v1 v2).2.exp ∧
      (equalizeExp far v1 v2).1.flags = v1.flags ∧ (equalizeExp far v1 v2).2.flags = v2.flags := by
  rw [equalizeExp_eq far rfl]
  exact ⟨rfl, rfl, rfl⟩

/-- Of two non-zero mantissas the operand with the larger exponent is untouched (R164 (d)). -/
theorem equalizeExp_fst_of_le (far : Limb128 → Nat → Limb128) {v1 v2 : ExtFloat} (h1 : v1.mant ≠ 0)
    (h2 : v2.mant ≠ 0) (h : v2.exp.toNat ≤ v1.exp.toNat) : (equalizeExp far v1 v2).1 = v1 := by
  rw [equalizeExp_eq far (alignExps_of_ne_ne h1 h2), largerExp_of_le h, alignTo_self]

/-- Two exponents at most 128 apart leave nothing to the parameter (R163). -/
theorem equalizeExp_near (far far' : Limb128 → Nat → Limb128) {v1 v2 : ExtFloat}
    (h12 : v1.exp.toNat ≤ v2.exp.toNat + 128) (h21 : v2.exp.toNat ≤ v1.exp.toNat + 128) :
    equalizeExp far v1 v2 = equalizeExp far' v1 v2 := by
  obtain ⟨e, he, -⟩ | ⟨he, -⟩ := alignExps_cases v1 v2
  · rw [equalizeExp_eq far he, equalizeExp_eq far' he, largerExp_of_le le_rfl]
    simp only [alignTo_self]
  · have hlarger := largerExp_toNat v1.exp v2.exp
    rw [equalizeExp_eq far he, equalizeExp_eq far' he, alignTo_near far far' v1 (by omega),
      alignTo_near far far' v2 (by omega)]

/-! ## What EQEXP answers (R161 to R164) -/

/-- An operand aligned with the spec's value of the parameter, on its field. -/
theorem ofExt_alignTo (v : ExtFloat) (e : Word32) {top : Word32} {n : Nat} (htop : top.toNat = n) :
    Bus.ofExt (alignTo eqexpFarZero v e top) = extField (v.mant.toNat / 2 ^ (n - e.toNat)) v.flags.toNat n :=
  htop ▸ ofExt_eq_extField (alignDown_zero v.mant _) rfl rfl

theorem answer_eqexp {v1 v2 : ExtFloat} {e1 e2 : Word32} (he : alignExps v1 v2 = (e1, e2)) :
    answer (.eqexp v1 v2) =
      ⟨extField (v1.mant.toNat / 2 ^ (max e1.toNat e2.toNat - e1.toNat)) v1.flags.toNat (max e1.toNat e2.toNat),
        extField (v2.mant.toNat / 2 ^ (max e1.toNat e2.toNat - e2.toNat)) v2.flags.toNat (max e1.toNat e2.toNat),
        0, false⟩ := by
  have htop := largerExp_toNat e1 e2
  simp only [answer, eqexpRsp, defaults, equalizeExp_eq _ he, ofExt_alignTo _ _ htop]

/-- Settles O26: the exponents of the special case are the ones each operand is aligned from. -/
theorem eqexpAlignsToLargerExponent : Obligations.EqexpAlignsToLargerExponent := by
  refine ⟨fun v1 v2 s => ⟨(alignExps v1 v2).1.toNat, (alignExps v1 v2).2.toNat, ?_, ?_, ?_, ?_,
    exec_gives rfl (answer_eqexp rfl) s⟩, runsAs_uncounted .EQEXP rfl⟩
  · intro h1 h2
    rw [alignExps_of_zero_zero h1 h2]
    exact ⟨rfl, rfl⟩
  · intro h1 h2
    rw [alignExps_of_zero_ne h1 h2]
    exact ⟨rfl, rfl⟩
  · intro h1 h2
    rw [alignExps_of_ne_zero h1 h2]
    exact ⟨rfl, rfl⟩
  · intro h1 h2
    rw [alignExps_of_ne_ne h1 h2]
    exact ⟨rfl, rfl⟩

/-- Settles O27: exponents and flags do not come from the parameter; the second operand is the first of the exchange. -/
theorem eqexpHoldsForEveryFarValue : Obligations.EqexpHoldsForEveryFarValue := by
  intro far v1 v2
  obtain ⟨hexp, hflags1, hflags2⟩ := equalizeExp_exp_flags far v1 v2
  refine ⟨hexp, hflags1, hflags2, equalizeExp_fst_of_le far, fun h1 h2 h => ?_, equalizeExp_near far eqexpFarZero⟩
  rw [equalizeExp_swap]
  exact equalizeExp_fst_of_le far h2 h1 h

/-- Settles O28: the two fields carry the two halves of a pair that the exchange swaps. -/
theorem eqexpSwapsWithOperands : Obligations.EqexpSwapsWithOperands := by
  intro v1 v2
  simp only [answer, eqexpRsp, equalizeExp_swap _ v1 v2, Prod.fst_swap, Prod.snd_swap, and_self]

/-! ## What NORM answers (R166 to R169) -/

/-- The exponent drops modulo 2^32 (R168, D11). -/
theorem exp_sub_toNat (e : Word32) {k : Nat} (hk : k ≤ 127) :
    (e - BitVec.ofNat 32 k).toNat = (e.toNat + 2 ^ 32 - k) % 2 ^ 32 := by
  rw [BitVec.toNat_sub, BitVec.toNat_ofNat]
  omega

theorem answer_norm_of_zero {x : ExtFloat} (h : x.mant = 0) :
    answer (.norm x) = ⟨extField 0 x.flags.toNat x.exp.toNat, 0, 0, false⟩ := by
  have hm : x.mant.toNat = 0 := by rw [h]; rfl
  simp only [answer, normRsp, normalizeExt_of_zero x h, ofExt_eq_extField hm rfl rfl]

/-- NORM's shift of a non-zero mantissa, in the numbers of its fields. -/
theorem normalizeExt_toNat {x : ExtFloat} (h : x.mant ≠ 0) : ∃ k, k ≤ 127 ∧
    2 ^ 127 ≤ x.mant.toNat * 2 ^ k ∧ x.mant.toNat * 2 ^ k < 2 ^ 128 ∧
    (normalizeExt x).mant.toNat = x.mant.toNat * 2 ^ k ∧
    (normalizeExt x).exp.toNat = (x.exp.toNat + 2 ^ 32 - k) % 2 ^ 32 := by
  obtain ⟨k, hk, htop, hfits, hnorm⟩ := normalizeExt_of_ne x h
  refine ⟨k, hk, htop, hfits, ?_, ?_⟩ <;> rw [hnorm]
  · exact (BitVec.toNat_ofNat _ _).trans (Nat.mod_eq_of_lt hfits)
  · exact exp_sub_toNat x.exp hk

/-- Settles O29: zero is returned as it is, and another mantissa is shifted as `normalizeExt_toNat` says. -/
theorem normShiftsToTopBit : Obligations.NormShiftsToTopBit := by
  refine ⟨fun x s hx => exec_gives rfl (answer_norm_of_zero hx) s, fun x s hx => ?_, runsAs_uncounted .NORM rfl⟩
  obtain ⟨k, hk, htop, hfits, hmant, hexp⟩ := normalizeExt_toNat hx
  refine ⟨k, hk, htop, hfits, exec_gives rfl ?_ s⟩
  simp only [answer, normRsp, ofExt_eq_extField hmant rfl hexp, normalizeExt_flags]

/-- Bit 127 of a mantissa is set from the upper half of the range on (R14). -/
theorem topBit_iff (m : Limb128) : m.getLsbD 127 = true ↔ 2 ^ 127 ≤ m.toNat := by
  rw [← decide_eq_true_iff (p := 2 ^ 127 ≤ m.toNat)]
  exact Eq.congr_left (m.msb_eq_getLsbD_last.symm.trans m.msb_eq_decide)

/-- A mantissa with its top bit set allows no shift, so the number stays. -/
theorem normalizeExt_of_topBit {x : ExtFloat} (h : 2 ^ 127 ≤ x.mant.toNat) : normalizeExt x = x := by
  have hne : x.mant ≠ 0 := fun h0 => by simp [h0] at h
  obtain ⟨k, -, -, hfits, hnorm⟩ := normalizeExt_of_ne x hne
  obtain rfl : k = 0 := Nat.le_zero.mp (le_of_sets_top_bit (by rwa [Nat.pow_zero, Nat.mul_one]) hfits)
  rw [hnorm, Nat.pow_zero, Nat.mul_one, BitVec.ofNat_toNat, BitVec.setWidth_eq, BitVec.sub_zero]

theorem normalizeExt_zero_or_topBit (x : ExtFloat) :
    (normalizeExt x).mant = 0 ∨ 2 ^ 127 ≤ (normalizeExt x).mant.toNat := by
  by_cases hx : x.mant = 0
  · exact .inl (by rwa [normalizeExt_of_zero x hx])
  · obtain ⟨k, -, htop, -, hmant, -⟩ := normalizeExt_toNat hx
    exact .inr (hmant ▸ htop)

theorem normalizeExt_normalizeExt (x : ExtFloat) : normalizeExt (normalizeExt x) = normalizeExt x :=
  (normalizeExt_zero_or_topBit x).elim (normalizeExt_of_zero _) normalizeExt_of_topBit

/-- The ExtFloat on the field of NORM's answer. -/
theorem extOn_answer_norm (x : ExtFloat) : extOn (answer (.norm x)).X = normalizeExt x := ext_ofExt _

/-- Settles O30: what NORM leaves is zero or has its top bit set, and neither is shifted again. -/
theorem normIsIdempotent : Obligations.NormIsIdempotent := by
  intro x
  simp only [extOn_answer_norm, topBit_iff]
  refine ⟨by simp only [answer, normRsp, normalizeExt_normalizeExt], ?_⟩
  obtain hzero | htop := normalizeExt_zero_or_topBit x
  · exact .inl ⟨hzero, by simp [hzero]⟩
  · exact .inr ⟨htop, fun hzero => by simp [hzero] at htop⟩

/-! ## The value under NORM (R14, R169 (a)) -/

/-- A shift up by `k` doubles the mantissa `k` times, an exponent lower by `k` halves the magnitude as often. -/
theorem magnitude_eq_of_shift {x y : ExtFloat} {k : Nat} (hm : y.mant.toNat = x.mant.toNat * 2 ^ k)
    (he : y.exp.toNat + k = x.exp.toNat) : y.magnitude = x.magnitude := by
  have hexp : x.trueExp = k + y.trueExp := by
    rw [ExtFloat.trueExp, ExtFloat.trueExp]
    omega
  rw [ExtFloat.magnitude, ExtFloat.magnitude, hm, hexp, zpow_add₀ two_ne_zero, zpow_natCast, Nat.cast_mul,
    Nat.cast_pow, Nat.cast_ofNat]
  ring

theorem value_eq_of_magnitude {x y : ExtFloat} (hf : y.flags = x.flags) (hm : y.magnitude = x.magnitude) :
    y.value = x.value := by
  rw [ExtFloat.value, ExtFloat.value, Flag.signOf, Flag.signOf, hf, hm]

/-- Settles O31: the shift is the bit count (O20), so an exponent not below it drops by the shift without wrapping. -/
theorem normKeepsValue : Obligations.NormKeepsValue := by
  intro x hle
  by_cases hx : x.mant = 0
  · rw [normalizeExt_of_zero x hx]
  · obtain ⟨k, hk, htop, hfits, hmant, hexp⟩ := normalizeExt_toNat hx
    obtain rfl : k = leadingZeroBits x.mant := ((leadingZeroBitsNormalise x.mant hx).2 k hk).mp ⟨htop, hfits⟩
    refine value_eq_of_magnitude (normalizeExt_flags x) (magnitude_eq_of_shift hmant ?_)
    have hlt := x.exp.isLt
    omega

end Sys2Proof.Proofs

/-! # Proofs: the client operations (47_extfloat_client_ops.md)

The flags word as its sign bit and the other bits, which every operation ORs together; `add` and `compare` from the
aligned operands; the product as a truncation of the true one; what a constructor delivers. -/

namespace Sys2Proof.Proofs

open Machine Statement

/-! ## The flags word (R15, R181) -/

/-- The flags but the sign, which bit 0 is: what a binary operation accumulates (R181). -/
def nonSign (f : Word32) : Word32 := f &&& 0xFFFFFFFE#32

theorem nonSign_or (f g : Word32) : nonSign (f ||| g) = nonSign f ||| nonSign g :=
  BitVec.and_or_distrib_right

@[simp] theorem nonSign_nonSign (f : Word32) : nonSign (nonSign f) = nonSign f := by
  rw [nonSign, nonSign, BitVec.and_assoc, BitVec.and_self]

@[simp] theorem nonSign_ofSign (s : Bool) : nonSign (Flag.ofSign s) = 0 := by
  cases s <;> rfl

theorem accumulate_eq (a b : ExtFloat) : Flag.accumulate a b = nonSign a.flags ||| nonSign b.flags :=
  nonSign_or a.flags b.flags

theorem accumulate_comm (a b : ExtFloat) : Flag.accumulate a b = Flag.accumulate b a := by
  rw [accumulate_eq, accumulate_eq, BitVec.or_comm]

theorem getLsbD_ofSign (s : Bool) (i : Nat) : (Flag.ofSign s).getLsbD i = (s && decide (i = 0)) := by
  cases s <;> simp [Flag.ofSign, Flag.sign]

theorem getLsbD_nonSign (f : Word32) (i : Nat) : (nonSign f).getLsbD i = (f.getLsbD i && !decide (i = 0)) := by
  have hmask : 0xFFFFFFFE#32 = ~~~1#32 := rfl
  rw [nonSign, hmask, BitVec.getLsbD_and, BitVec.getLsbD_not, BitVec.getLsbD_one]
  by_cases hi : i < 32
  · simp [hi]
  · simp [BitVec.getLsbD_of_ge f i (Nat.le_of_not_lt hi)]

@[simp] theorem nonSign_accumulate (a b : ExtFloat) : nonSign (Flag.accumulate a b) = Flag.accumulate a b :=
  nonSign_nonSign (a.flags ||| b.flags)

theorem getLsbD_zero_accumulate (a b : ExtFloat) : (Flag.accumulate a b).getLsbD 0 = false := by
  rw [← nonSign_accumulate, getLsbD_nonSign]
  exact Bool.and_false _

theorem getLsbD_zero_ofSign (s : Bool) : (Flag.ofSign s).getLsbD 0 = s :=
  (getLsbD_ofSign s 0).trans (Bool.and_true s)

/-- A result's flags are the accumulated ones under a sign of its own. -/
theorem nonSign_signed (a b : ExtFloat) (s : Bool) :
    nonSign (Flag.accumulate a b ||| Flag.ofSign s) = Flag.accumulate a b := by
  rw [nonSign_or, nonSign_ofSign, nonSign_accumulate, BitVec.ofNat_eq_ofNat, BitVec.or_zero]

/-! ## Negation (R182) -/

theorem signOf_negate (x : ExtFloat) : Flag.signOf (Client.negate x) = !Flag.signOf x := by
  simp [Flag.signOf, Client.negate, Flag.sign]

theorem nonSign_negate (x : ExtFloat) : nonSign (Client.negate x).flags = nonSign x.flags := by
  apply BitVec.eq_of_getLsbD_eq
  intro i _
  rw [getLsbD_nonSign, getLsbD_nonSign]
  by_cases hi : i = 0
  · simp [hi]
  · simp [Client.negate, Flag.sign, hi]

theorem negate_negate (x : ExtFloat) : Client.negate (Client.negate x) = x := by
  simp only [Client.negate, BitVec.xor_assoc, BitVec.xor_self, BitVec.xor_zero]

/-- Settles O52: `negate` is an XOR with bit 0 of the flags. -/
theorem negateTogglesSignOnly : Obligations.NegateTogglesSignOnly := fun x =>
  ⟨signOf_negate x, nonSign_negate x, rfl, rfl, negate_negate x⟩

/-! ## Addition from the aligned operands (R183 to R185) -/

section

variable {p : Config.Params} {a b a' b' : ExtFloat}

theorem add_of_sign_eq (h : Flag.signOf a = Flag.signOf b) :
    Client.add p a b =
      Client.addSame a b (equalizeExp p.eqexpFar a b).1 (equalizeExp p.eqexpFar a b).2 := by
  rw [Client.add, if_pos h, Client.askEqexp_eq]

theorem add_of_sign_ne (h : Flag.signOf a ≠ Flag.signOf b) :
    Client.add p a b =
      Client.addDiffer p a b (equalizeExp p.eqexpFar a b).1 (equalizeExp p.eqexpFar a b).2 := by
  rw [Client.add, if_neg h, Client.askEqexp_eq]

theorem addSame_of_fits (h : a'.mant.toNat + b'.mant.toNat < 2 ^ 128) :
    Client.addSame a b a' b' =
      normalizeExt ⟨BitVec.ofNat 128 (a'.mant.toNat + b'.mant.toNat), a.flags ||| b.flags, a'.exp⟩ := by
  obtain ⟨hsum, hcarry⟩ := addHi_of_no_carry a'.mant b'.mant h
  rw [Client.addSame_eq, hcarry, if_neg Bool.false_ne_true, BitVec.add_zero, ← hsum, BitVec.ofNat_toNat,
    BitVec.setWidth_eq]

theorem addSame_of_carries (h : 2 ^ 128 ≤ a'.mant.toNat + b'.mant.toNat) :
    Client.addSame a b a' b' =
      normalizeExt ⟨BitVec.ofNat 128 ((a'.mant.toNat + b'.mant.toNat) / 2 ^ 32), a.flags ||| b.flags,
        a'.exp + 32#32⟩ := by
  obtain ⟨hsum, hcarry⟩ := addHi_of_carry a'.mant b'.mant h
  rw [Client.addSame_eq, hcarry, if_pos rfl, ← hsum, BitVec.ofNat_toNat, BitVec.setWidth_eq]

/-- Taking the smaller number from the larger does not wrap. -/
theorem subtract_eq_ofNat {m n : Limb128} (h : n.toNat ≤ m.toNat) :
    subtract m n = BitVec.ofNat 128 (m.toNat - n.toNat) := by
  apply BitVec.eq_of_toNat_eq
  rw [subtract_toNat, BitVec.toNat_ofNat]
  omega

theorem addDiffer_of_gt (h : b'.mant.toNat < a'.mant.toNat) :
    Client.addDiffer p a b a' b' =
      normalizeExt ⟨BitVec.ofNat 128 (a'.mant.toNat - b'.mant.toNat),
        Flag.accumulate a b ||| Flag.ofSign (Flag.signOf a), a'.exp⟩ := by
  rw [Client.addDiffer_eq, if_pos h, subtract_eq_ofNat h.le]

theorem addDiffer_of_lt (h : a'.mant.toNat < b'.mant.toNat) :
    Client.addDiffer p a b a' b' =
      normalizeExt ⟨BitVec.ofNat 128 (b'.mant.toNat - a'.mant.toNat),
        Flag.accumulate a b ||| Flag.ofSign (Flag.signOf b), a'.exp⟩ := by
  rw [Client.addDiffer_eq, if_neg h.asymm, if_pos h, subtract_eq_ofNat h.le]

theorem addDiffer_of_eq (h : a'.mant.toNat = b'.mant.toNat) :
    Client.addDiffer p a b a' b' = ⟨0, Flag.accumulate a b ||| Flag.ofSign (p.addEqualSign a b), a'.exp⟩ := by
  rw [Client.addDiffer_eq, if_neg h.not_gt, if_neg h.not_lt]

/-- Settles O60: the sum by whether it carries, the difference by which aligned mantissa is larger. -/
theorem addFollowsAlignedMantissas : Obligations.AddFollowsAlignedMantissas := fun _ _ _ =>
  ⟨fun hs h => (add_of_sign_eq hs).trans (addSame_of_fits h),
    fun hs h => (add_of_sign_eq hs).trans (addSame_of_carries h),
    fun hs h => (add_of_sign_ne hs).trans (addDiffer_of_gt h),
    fun hs h => (add_of_sign_ne hs).trans (addDiffer_of_lt h),
    fun hs h => (add_of_sign_ne hs).trans (addDiffer_of_eq h), rfl⟩

/-! ## Exchanging the operands (R203 (b)) -/

theorem addSame_comm (he : a'.exp = b'.exp) : Client.addSame a b a' b' = Client.addSame b a b' a' := by
  rw [Client.addSame_eq, Client.addSame_eq, addHi_comm, BitVec.or_comm, he]

/-- The larger mantissa gives the difference its sign, whichever operand has it. -/
theorem addDiffer_comm (he : a'.exp = b'.exp) (hs : p.addEqualSign a b = p.addEqualSign b a) :
    Client.addDiffer p a b a' b' = Client.addDiffer p b a b' a' := by
  obtain h | h | h := Nat.lt_trichotomy a'.mant.toNat b'.mant.toNat
  · rw [addDiffer_of_lt h, addDiffer_of_gt h, accumulate_comm, he]
  · rw [addDiffer_of_eq h, addDiffer_of_eq h.symm, accumulate_comm, he, hs]
  · rw [addDiffer_of_gt h, addDiffer_of_lt h, accumulate_comm, he]

theorem add_comm_of_symmetric (hs : p.addEqualSign a b = p.addEqualSign b a) :
    Client.add p a b = Client.add p b a := by
  obtain ⟨hexp, -, -⟩ := equalizeExp_exp_flags p.eqexpFar a b
  by_cases h : Flag.signOf a = Flag.signOf b
  · rw [add_of_sign_eq h, add_of_sign_eq h.symm, equalizeExp_swap _ a b]
    exact addSame_comm hexp
  · rw [add_of_sign_ne h, add_of_sign_ne (Ne.symm h), equalizeExp_swap _ a b]
    exact addDiffer_comm hexp hs

end

theorem mulnhRsp_comm (m n : Limb128) : mulnhRsp m n = mulnhRsp n m := by
  have hproduct : product m n = product n m := Nat.mul_comm _ _
  simp only [mulnhRsp, multiplyNormalizedHi, hproduct]

theorem multiply_comm (p : Config.Params) (a b : ExtFloat) : Client.multiply p a b = Client.multiply p b a := by
  have hsign : Client.xorSign a b = Client.xorSign b a := congrArg Flag.ofSign (Bool.xor_comm _ _)
  simp only [Client.multiply, mulnhRsp_comm a.mant, accumulate_comm a, hsign, BitVec.add_comm a.exp]

/-- Settles O53: each part of a sum and of a product treats the operands alike. -/
theorem addAndMultiplyCommute : Obligations.AddAndMultiplyCommute := fun p a b =>
  ⟨add_comm_of_symmetric, multiply_comm p a b⟩

/-! ## Operands of one exponent after the special case -/

/-- Operands of one exponent keep their mantissas (R161, R164 (d)). -/
theorem equalizeExp_of_same_exp (far : Limb128 → Nat → Limb128) {a b : ExtFloat} {e : Word32}
    (he : alignExps a b = (e, e)) :
    equalizeExp far a b = (⟨a.mant, a.flags, e⟩, ⟨b.mant, b.flags, e⟩) := by
  rw [equalizeExp_eq far he, largerExp_of_le le_rfl, alignTo_self, alignTo_self]

/-- A value and its negation have one exponent after the special case. -/
theorem alignExps_negate (a : ExtFloat) :
    ∃ e, alignExps a (Client.negate a) = (e, e) ∧ (a.mant ≠ 0 → e = a.exp) := by
  by_cases ha : a.mant = 0
  · exact ⟨_, alignExps_of_zero_zero ha ha, fun h => absurd ha h⟩
  · exact ⟨_, alignExps_of_ne_ne ha ha, fun _ => rfl⟩

/-- A value and its negation cancel as rule R185 says. -/
theorem add_negate (p : Config.Params) (a : ExtFloat) :
    ∃ e, (a.mant ≠ 0 → e = a.exp) ∧ Client.add p a (Client.negate a) =
      ⟨0, Flag.accumulate a (Client.negate a) ||| Flag.ofSign (p.addEqualSign a (Client.negate a)), e⟩ := by
  obtain ⟨e, he, hexp⟩ := alignExps_negate a
  have hsign : Flag.signOf a ≠ Flag.signOf (Client.negate a) := by simp [signOf_negate]
  refine ⟨e, hexp, ?_⟩
  rw [add_of_sign_ne hsign, equalizeExp_of_same_exp _ he]
  exact addDiffer_of_eq rfl

theorem accumulate_negate (a : ExtFloat) : Flag.accumulate a (Client.negate a) = nonSign a.flags := by
  rw [accumulate_eq, nonSign_negate, BitVec.or_self]

/-- Settles O54: the aligned mantissas are one, and negation changes no flag that is accumulated. -/
theorem addOfNegationIsZero : Obligations.AddOfNegationIsZero := by
  intro p a
  obtain ⟨e, hexp, hadd⟩ := add_negate p a
  rw [hadd, accumulate_negate]
  exact ⟨rfl, hexp, rfl⟩

/-! ## The flags of a sum, a difference and a product (R181, R186, R189) -/

theorem nonSign_add (p : Config.Params) (a b : ExtFloat) :
    nonSign (Client.add p a b).flags = Flag.accumulate a b := by
  by_cases hs : Flag.signOf a = Flag.signOf b
  · rw [add_of_sign_eq hs, Client.addSame_eq, normalizeExt_flags]
    rfl
  · rw [add_of_sign_ne hs, Client.addDiffer_eq]
    split_ifs <;> simp only [normalizeExt_flags, nonSign_signed]

theorem nonSign_subtract (p : Config.Params) (a b : ExtFloat) :
    nonSign (Client.subtract p a b).flags = Flag.accumulate a b := by
  rw [Client.subtract, nonSign_add, accumulate_eq, accumulate_eq, nonSign_negate]

theorem nonSign_multiply (p : Config.Params) (a b : ExtFloat) :
    nonSign (Client.multiply p a b).flags = Flag.accumulate a b :=
  nonSign_signed a b _

theorem signOf_multiply (p : Config.Params) (a b : ExtFloat) :
    Flag.signOf (Client.multiply p a b) = xor (Flag.signOf a) (Flag.signOf b) := by
  rw [Flag.signOf, Client.multiply, Client.xorSign, BitVec.getLsbD_or, getLsbD_zero_accumulate, getLsbD_zero_ofSign,
    Bool.false_or]

/-! ## The flags of a quotient (R193 to R195, R226) -/

theorem divide_of_zero (p : Config.Params) (a : ExtFloat) {b : ExtFloat} (hb : b.mant = 0) :
    Client.divide p a b = Client.zeroDivisor a b :=
  if_pos ((isZero_iff _).mpr hb)

theorem divide_of_ne (p : Config.Params) (a : ExtFloat) {b : ExtFloat} (hb : b.mant ≠ 0) :
    Client.divide p a b = Client.multiply p a (Client.refine p b 7 (Client.seed p b)) :=
  if_neg fun h => hb ((isZero_iff _).mp h)

theorem nonSign_zeroDivisor (a b : ExtFloat) :
    nonSign (Client.zeroDivisor a b).flags = Flag.accumulate a b ||| Flag.zeroDiv := by
  have hbit : nonSign Flag.zeroDiv = Flag.zeroDiv := rfl
  rw [Client.zeroDivisor, Client.xorSign, nonSign_or, nonSign_or, nonSign_ofSign, nonSign_accumulate, hbit,
    BitVec.ofNat_eq_ofNat, BitVec.or_zero]

theorem signOf_zeroDivisor (a b : ExtFloat) :
    Flag.signOf (Client.zeroDivisor a b) = xor (Flag.signOf a) (Flag.signOf b) := by
  have hbit : Flag.zeroDiv.getLsbD 0 = false := rfl
  rw [Flag.signOf, Client.zeroDivisor, Client.xorSign, BitVec.getLsbD_or, BitVec.getLsbD_or, getLsbD_zero_accumulate,
    getLsbD_zero_ofSign, hbit, Bool.false_or, Bool.false_or]

/-- Settles O56: a zero divisor gives the sentinel, whose flags are the accumulated ones, ZERODIV and the sign. -/
theorem divideByZeroGivesSentinel : Obligations.DivideByZeroGivesSentinel := by
  intro p a b hb
  rw [divide_of_zero p a hb]
  refine ⟨rfl, rfl, signOf_zeroDivisor a b, ?_, nonSign_zeroDivisor a b⟩
  simp [Client.zeroDivisor, Flag.zeroDiv]

/-- A refinement brings in the divisor's flags; 2.0 has none of its own. -/
theorem nonSign_refineOnce (p : Config.Params) (b r : ExtFloat) :
    nonSign (Client.refineOnce p b r).flags = nonSign b.flags ||| nonSign r.flags := by
  have htwo : nonSign Client.two.flags = 0#32 := rfl
  rw [Client.refineOnce, nonSign_multiply, accumulate_eq, nonSign_subtract, accumulate_eq, htwo, nonSign_multiply,
    accumulate_eq, BitVec.zero_or, BitVec.or_comm, BitVec.or_assoc, BitVec.or_self]

/-- Further refinements bring in nothing more. -/
theorem nonSign_refine (p : Config.Params) (b r : ExtFloat) (n : Nat) :
    nonSign (Client.refine p b (n + 1) r).flags = nonSign b.flags ||| nonSign r.flags := by
  induction n generalizing r with
  | zero => exact nonSign_refineOnce p b r
  | succ n ih =>
    rw [Client.refine, ih, nonSign_refineOnce, ← BitVec.or_assoc, BitVec.or_self]

/-- The quotient's flags are the operands' and the seed's, under a sign of its own. -/
theorem divide_flags_of_ne (p : Config.Params) (a : ExtFloat) {b : ExtFloat} (hb : b.mant ≠ 0) :
    ∃ s, (Client.divide p a b).flags =
      Flag.accumulate a b ||| (nonSign (Client.seed p b).flags ||| Flag.ofSign s) := by
  refine ⟨xor (Flag.signOf a) (Flag.signOf (Client.refine p b 7 (Client.seed p b))), ?_⟩
  rw [divide_of_ne p a hb, Client.multiply, Client.xorSign, accumulate_eq, accumulate_eq, nonSign_refine,
    BitVec.or_assoc, BitVec.or_assoc, BitVec.or_assoc]

/-- Each flag but the sign is an operand's or the seed's. -/
theorem getLsbD_divide (p : Config.Params) (a : ExtFloat) {b : ExtFloat} (hb : b.mant ≠ 0) {i : Nat} (hi : i ≠ 0) :
    (Client.divide p a b).flags.getLsbD i =
      (a.flags.getLsbD i || b.flags.getLsbD i || (Client.seed p b).flags.getLsbD i) := by
  obtain ⟨s, hflags⟩ := divide_flags_of_ne p a hb
  simp [hflags, accumulate_eq, getLsbD_nonSign, getLsbD_ofSign, hi]

theorem and_or_absorb (f g : Word32) : f &&& (f ||| g) = f := by
  apply BitVec.eq_of_getLsbD_eq
  intro i _
  rw [BitVec.getLsbD_and, BitVec.getLsbD_or]
  exact inf_sup_self

/-- A divide clears no flag. -/
theorem accumulate_and_divide (p : Config.Params) (a b : ExtFloat) :
    Flag.accumulate a b &&& (Client.divide p a b).flags = Flag.accumulate a b := by
  by_cases hb : b.mant = 0
  · rw [divide_of_zero p a hb, Client.zeroDivisor, BitVec.or_assoc, and_or_absorb]
  · obtain ⟨s, hflags⟩ := divide_flags_of_ne p a hb
    rw [hflags, and_or_absorb]

/-- A conversion from the native format sets no error bit (R221). -/
theorem f32ToExt_no_error (p : Config.Params) (g : Word32) {i : Nat} (hi : i = 1 ∨ i = 2 ∨ i = 3) :
    (Client.f32ToExt p g).flags.getLsbD i = false := by
  unfold Client.f32ToExt
  split_ifs
  · have h0 : i ≠ 0 := by omega
    simp [getLsbD_ofSign, h0]
  · rw [Client.construct_eq, normalizeExt_flags]
    exact Flag.withoutErrors_error _ i hi

/-- The seed's one error bit is REDPREC, where the approximation is zero (R194). -/
theorem seed_error (p : Config.Params) (b : ExtFloat) {i : Nat} (hi : i = 1 ∨ i = 2 ∨ i = 3) :
    (Client.seed p b).flags.getLsbD i = (decide (i = 3) && F32.isZero (Client.extToF32 p b)) := by
  unfold Client.seed
  by_cases hz : F32.isZero (Client.extToF32 p b) = true
  · simp only [hz, if_true, BitVec.getLsbD_or, Flag.withoutErrors_error _ i hi, Bool.false_or, Bool.and_true]
    obtain rfl | rfl | rfl := hi <;> rfl
  · simp [hz, f32ToExt_no_error p _ hi]

/-! ## A value too small for the native format (R14, R194) -/

theorem toNat_pos {m : Limb128} (h : m ≠ 0) : 0 < m.toNat :=
  Nat.pos_of_ne_zero fun h0 => h (BitVec.eq_of_toNat_eq h0)

/-- The number of a magnitude in units of the mantissa's last place (R14). -/
theorem magnitude_eq (v : ExtFloat) : v.magnitude = v.mant.toNat * (2 : ℚ) ^ (v.trueExp - 128) := by
  rw [ExtFloat.magnitude, zpow_sub₀ two_ne_zero, div_mul_eq_mul_div, mul_div_assoc]
  norm_cast

/-- A normalised value is at least half of two to its true exponent (R14). -/
theorem le_magnitude_of_topBit {v : ExtFloat} (h : 2 ^ 127 ≤ v.mant.toNat) :
    (2 : ℚ) ^ (v.trueExp - 1) ≤ v.magnitude := by
  have hcast : (2 : ℚ) ^ (127 : ℤ) ≤ v.mant.toNat := by exact_mod_cast h
  have hsplit : v.trueExp - 1 = 127 + (v.trueExp - 128) := by ring
  rw [magnitude_eq, hsplit, zpow_add₀ two_ne_zero]
  exact mul_le_mul_of_nonneg_right hcast (by positivity)

/-- The test for a value too small for the format is complete: it finds every magnitude below the threshold. -/
theorem tooSmallForF32_of_magnitude_lt {p : Config.Params} {b : ExtFloat} (hb : b.mant ≠ 0)
    (hlt : b.magnitude < (2 : ℚ) ^ p.f32ZeroBelow) : Client.tooSmallForF32 p b = true := by
  have hmant : (b.mant.toNat : ℚ) < 2 ^ (128 + p.f32ZeroBelow - b.trueExp) := by
    have hsplit : p.f32ZeroBelow = (128 + p.f32ZeroBelow - b.trueExp) + (b.trueExp - 128) := by ring
    rw [magnitude_eq, hsplit, zpow_add₀ two_ne_zero] at hlt
    exact lt_of_mul_lt_mul_right hlt (by positivity)
  have hone : (1 : ℚ) ≤ b.mant.toNat := by exact_mod_cast toNat_pos hb
  have hnonneg : 0 ≤ 128 + p.f32ZeroBelow - b.trueExp := by
    by_contra hneg
    exact (hone.trans_lt hmant).not_gt (zpow_lt_one_of_neg₀ one_lt_two (Int.lt_of_not_ge hneg))
  have hnat : b.mant.toNat < 2 ^ (128 + p.f32ZeroBelow - b.trueExp).toNat := by
    rw [← Int.toNat_of_nonneg hnonneg, zpow_natCast] at hmant
    exact_mod_cast hmant
  refine decide_eq_true ⟨hb, ?_⟩
  obtain hmin | hmin := min_choice 128 (128 + p.f32ZeroBelow - b.trueExp).toNat
  · exact hmin.symm ▸ b.mant.isLt
  · exact hmin.symm ▸ hnat

/-- A threshold up to the smallest normal number is below every value the format has a normal number for, so only the
test for too small a value is left (R194, U12). -/
theorem extToF32_isZero_of_small {p : Config.Params} {b : ExtFloat} (hb : b.mant ≠ 0) (hp : p.f32ZeroBelow ≤ -126)
    (hlt : b.magnitude < (2 : ℚ) ^ p.f32ZeroBelow) : F32.isZero (Client.extToF32 p b) = true := by
  have hsmall := tooSmallForF32_of_magnitude_lt hb hlt
  have hnotNormal : ¬(b.mant.getLsbD 127 = true ∧ 1 ≤ b.trueExp + 126 ∧ b.trueExp + 126 ≤ 254) := by
    rintro ⟨htop, hexp, -⟩
    have hle : (2 : ℚ) ^ p.f32ZeroBelow ≤ 2 ^ (b.trueExp - 1) := zpow_le_zpow_right₀ one_le_two (by omega)
    exact (hle.trans (le_magnitude_of_topBit ((topBit_iff _).mp htop))).not_gt hlt
  have hzero : Client.extToF32 p b = BitVec.ofBool (Flag.signOf b) ++ 0#31 :=
    (if_neg hnotNormal).trans (if_pos hsmall)
  rw [hzero, F32.isZero, BitVec.extractLsb'_append_eq_right]
  rfl

/-- Settles O55: the sign apart, flags only accumulate; the seed, which alone has flags of its own, has no error bit but
REDPREC. -/
theorem flagsAccumulateThroughClientOps : Obligations.FlagsAccumulateThroughClientOps := by
  intro p a b
  refine ⟨nonSign_add p a b, nonSign_subtract p a b, nonSign_multiply p a b, accumulate_and_divide p a b,
    fun hb => ⟨?_, ?_, ?_, extToF32_isZero_of_small hb⟩⟩
  · rw [getLsbD_divide p a hb one_ne_zero, seed_error p b (.inl rfl)]
    exact Bool.or_false _
  · rw [getLsbD_divide p a hb two_ne_zero, seed_error p b (.inr (.inl rfl))]
    exact Bool.or_false _
  · rw [getLsbD_divide p a hb three_ne_zero, seed_error p b (.inr (.inr rfl))]
    rfl

/-! ## Comparison (R196, R197) -/

/-- The order of two numbers as the comparison answers it. -/
def natOrder (m n : Nat) : Int := if n < m then 1 else if m < n then -1 else 0

theorem natOrder_swap (m n : Nat) : natOrder n m = -natOrder m n := by
  obtain h | rfl | h := Nat.lt_trichotomy m n
  · simp [natOrder, h, h.asymm]
  · simp [natOrder]
  · simp [natOrder, h, h.asymm]

theorem neg_one_le_natOrder (m n : Nat) : -1 ≤ natOrder m n := by
  unfold natOrder
  split_ifs <;> decide

section

variable (p : Config.Params) (a b : ExtFloat)

theorem compare_eq :
    Client.compare p a b =
      natOrder (equalizeExp p.eqexpFar a b).1.mant.toNat (equalizeExp p.eqexpFar a b).2.mant.toNat := by
  simp only [Client.compare, Client.askEqexp_eq, cmpRsp, compare3_eq, apply_ite int32, apply_ite BitVec.toInt]
  rfl

theorem compare_swap : Client.compare p b a = -Client.compare p a b := by
  rw [compare_eq, compare_eq, equalizeExp_swap, natOrder_swap]
  rfl

theorem compare_eq_alignDown :
    Client.compare p a b =
      let e := alignExps a b
      let top := (largerExp e.1 e.2).toNat
      natOrder (alignDown p.eqexpFar a.mant (top - e.1.toNat)).toNat
        (alignDown p.eqexpFar b.mant (top - e.2.toNat)).toNat := by
  rw [compare_eq, equalizeExp_eq _ rfl]
  rfl

/-- The alignment of the mantissas reads no flag. -/
theorem compare_flags (fa fb : Word32) :
    Client.compare p { a with flags := fa } { b with flags := fb } = Client.compare p a b := by
  rw [compare_eq_alignDown, compare_eq_alignDown]
  rfl

theorem neg_one_le_compare : -1 ≤ Client.compare p a b :=
  compare_eq p a b ▸ neg_one_le_natOrder _ _

theorem gt_iff_compare_eq : Client.gt p a b = true ↔ Client.compare p a b = 1 := decide_eq_true_iff

theorem lt_iff_compare_eq : Client.lt p a b = true ↔ Client.compare p a b = -1 := decide_eq_true_iff

theorem gt_iff_lt_swap : Client.gt p a b = true ↔ Client.lt p b a = true := by
  rw [gt_iff_compare_eq, lt_iff_compare_eq, compare_swap p a b]
  omega

theorem ge_eq_not_lt : Client.ge p a b = !Client.lt p a b := by
  have h := neg_one_le_compare p a b
  rw [Client.ge, Client.lt, ← decide_not, decide_eq_decide]
  omega

variable {p a b}

theorem compare_of_same_exp {e : Word32} (he : alignExps a b = (e, e)) :
    Client.compare p a b = natOrder a.mant.toNat b.mant.toNat := by
  rw [compare_eq, equalizeExp_of_same_exp _ he]

/-- Up to a distance of 128 the mantissa of the smaller exponent is divided by two to the distance (R163). -/
theorem compare_of_near (ha : a.mant ≠ 0) (hb : b.mant ≠ 0) (hle : b.exp.toNat ≤ a.exp.toNat)
    (hnear : a.exp.toNat ≤ b.exp.toNat + 128) :
    Client.compare p a b = natOrder a.mant.toNat (b.mant.toNat / 2 ^ (a.exp.toNat - b.exp.toNat)) := by
  have hsmaller : (equalizeExp p.eqexpFar a b).2.mant.toNat = b.mant.toNat / 2 ^ (a.exp.toNat - b.exp.toNat) := by
    rw [equalizeExp_eq _ (alignExps_of_ne_ne ha hb), largerExp_of_le hle]
    exact alignDown_near _ _ _ (by omega)
  rw [compare_eq, equalizeExp_fst_of_le _ ha hb hle, hsmaller]

theorem compare_zero_ne (ha : a.mant = 0) (hb : b.mant ≠ 0) : Client.compare p a b = -1 := by
  rw [compare_of_same_exp (alignExps_of_zero_ne ha hb), ha]
  exact (if_neg (Nat.not_lt_zero _)).trans (if_pos (toNat_pos hb))

theorem compare_zero_zero (ha : a.mant = 0) (hb : b.mant = 0) : Client.compare p a b = 0 := by
  rw [compare_of_same_exp (alignExps_of_zero_zero ha hb), ha, hb]
  rfl

theorem compare_negate : Client.compare p a (Client.negate a) = 0 := by
  obtain ⟨e, he, -⟩ := alignExps_negate a
  rw [compare_of_same_exp he]
  exact (if_neg (lt_irrefl _)).trans (if_neg (lt_irrefl _))

end

/-- Settles O57: the alignment is symmetric and reads no flag, and the operators read the one comparison. -/
theorem compareIgnoresSigns : Obligations.CompareIgnoresSigns := fun p a b fa fb =>
  ⟨compare_eq p a b, compare_of_near, compare_zero_ne, compare_zero_zero, compare_flags p a b fa fb,
    compare_swap p a b, compare_negate, gt_iff_compare_eq p a b, lt_iff_compare_eq p a b, decide_eq_true_iff,
    decide_eq_true_iff, decide_eq_true_iff, gt_iff_lt_swap p a b, ge_eq_not_lt p a b⟩

/-! ## The product as a number (R14, R189, R190) -/

/-- MULNH's answer to two non-zero mantissas: the top half of their product, shifted up until its top bit is set. -/
theorem mulnhRsp_toNat {m n : Limb128} (hm : m ≠ 0) (hn : n ≠ 0) : ∃ sh : Nat, sh ≤ 255 ∧
    2 ^ 255 ≤ m.toNat * n.toNat * 2 ^ sh ∧
    (Bus.wide (mulnhRsp m n).X).toNat = m.toNat * n.toNat * 2 ^ sh / 2 ^ 128 ∧
    (mulnhRsp m n).S = BitVec.ofNat 32 (2 ^ 32 + 128 - sh) := by
  have hP : product m n ≠ 0 := (Nat.mul_pos (toNat_pos hm) (toNat_pos hn)).ne'
  obtain ⟨hsh, htop, hfits⟩ := productShift_spec _ hP (product_lt m n)
  refine ⟨_, hsh, htop, ?_, ?_⟩
  · simp only [mulnhRsp, multiplyNormalizedHi, if_neg hP, wide_ofWide]
    exact (BitVec.toNat_ofNat _ _).trans (Nat.mod_eq_of_lt (Nat.div_lt_of_lt_mul hfits))
  · simp only [mulnhRsp, multiplyNormalizedHi, if_neg hP, int32_128_sub hsh]

/-- The product's exponent, where it does not wrap (R190). -/
theorem product_exp_toNat {x y : Word32} {sh : Nat} (hsh : sh ≤ 255) (hlow : 2 ^ 31 + 255 ≤ x.toNat + y.toNat)
    (hhigh : x.toNat + y.toNat < 2 ^ 32 + 2 ^ 31) :
    (x + y - Config.bias + BitVec.ofNat 32 (2 ^ 32 + 128 - sh) + mulExpAdjMinus128).toNat =
      x.toNat + y.toNat - 2 ^ 31 - sh := by
  have hbias : Config.bias.toNat = 2 ^ 31 := rfl
  have hadj : mulExpAdjMinus128.toNat = 2 ^ 32 - 128 := rfl
  rw [BitVec.toNat_add, BitVec.toNat_add, BitVec.toNat_sub, BitVec.toNat_add, BitVec.toNat_ofNat, hbias, hadj]
  omega

/-- The fields of a product whose exponent does not wrap. -/
theorem multiply_toNat {p : Config.Params} {a b : ExtFloat} (hp : p.mulExpAdj = mulExpAdjMinus128) (ha : a.mant ≠ 0)
    (hb : b.mant ≠ 0) (hlow : 2 ^ 31 + 255 ≤ a.exp.toNat + b.exp.toNat)
    (hhigh : a.exp.toNat + b.exp.toNat < 2 ^ 32 + 2 ^ 31) :
    ∃ sh : Nat, 2 ^ 255 ≤ a.mant.toNat * b.mant.toNat * 2 ^ sh ∧
      (Client.multiply p a b).mant.toNat = a.mant.toNat * b.mant.toNat * 2 ^ sh / 2 ^ 128 ∧
      (Client.multiply p a b).trueExp = a.trueExp + b.trueExp - sh := by
  obtain ⟨sh, hsh, htop, hmant, hS⟩ := mulnhRsp_toNat ha hb
  refine ⟨sh, htop, hmant, ?_⟩
  rw [ExtFloat.trueExp, Client.multiply, hS, hp, product_exp_toNat hsh hlow hhigh, ExtFloat.trueExp, ExtFloat.trueExp]
  omega

theorem magnitude_pos {v : ExtFloat} (h : v.mant ≠ 0) : 0 < v.magnitude := by
  have hpos := toNat_pos h
  rw [magnitude_eq]
  positivity

/-- In units of the last place of a mantissa with the exponent `e - sh`, a product of magnitudes is the product of the
mantissas, shifted up by `sh`, over 2^128. -/
theorem magnitude_mul (a b : ExtFloat) (sh : Nat) :
    a.magnitude * b.magnitude =
      (a.mant.toNat * b.mant.toNat * 2 ^ sh : Nat) / 2 ^ 128 * (2 : ℚ) ^ (a.trueExp + b.trueExp - sh - 128) := by
  rw [magnitude_eq, magnitude_eq]
  simp only [zpow_sub₀ (two_ne_zero (α := ℚ)), zpow_add₀ (two_ne_zero (α := ℚ)), zpow_natCast]
  push_cast
  field_simp
  ring

/-- Under the XOR of the signs the values multiply as the magnitudes do. -/
theorem value_mul_of_xor_sign {r a b : ExtFloat} (h : Flag.signOf r = xor (Flag.signOf a) (Flag.signOf b)) :
    r.value * (a.value * b.value) = r.magnitude * (a.magnitude * b.magnitude) := by
  simp only [ExtFloat.value, h]
  cases Flag.signOf a <;> cases Flag.signOf b <;> simp

/-- Settles O59: the mantissa is the floor of the true product in units of its own last place. -/
theorem multiplyTruncatesTrueProduct : Obligations.MultiplyTruncatesTrueProduct := by
  refine ⟨signOf_multiply, fun p a b hp ha hb hlow hhigh => ?_⟩
  obtain ⟨sh, htop, hmant, hexp⟩ := multiply_toNat hp ha hb hlow hhigh
  have hnorm : 2 ^ 127 ≤ (Client.multiply p a b).mant.toNat := by omega
  have hne : (Client.multiply p a b).mant ≠ 0 := fun h => by simp [h] at hnorm
  have hulp : (0 : ℚ) < 2 ^ (a.trueExp + b.trueExp - sh - 128) := by positivity
  have hle : ((Client.multiply p a b).mant.toNat : ℚ) ≤ (a.mant.toNat * b.mant.toNat * 2 ^ sh : Nat) / 2 ^ 128 := by
    rw [hmant]
    exact_mod_cast Nat.cast_div_le
  have hlt : ((a.mant.toNat * b.mant.toNat * 2 ^ sh : Nat) / 2 ^ 128 : ℚ) <
      (Client.multiply p a b).mant.toNat + 1 := by
    rw [hmant, div_lt_iff₀ (by positivity)]
    exact_mod_cast Nat.lt_mul_of_div_lt (Nat.lt_succ_self _) (by positivity)
  refine ⟨(topBit_iff _).mpr hnorm, ?_, ?_, ?_⟩
  · rw [magnitude_mul a b sh, magnitude_eq, hexp]
    exact mul_le_mul_of_nonneg_right hle hulp.le
  · rw [magnitude_mul a b sh, magnitude_eq, hexp, ← add_one_mul]
    exact mul_lt_mul_of_pos_right hlt hulp
  · rw [value_mul_of_xor_sign (signOf_multiply p a b)]
    exact mul_pos (magnitude_pos hne) (mul_pos (magnitude_pos ha) (magnitude_pos hb))

/-! ## A normal binary32 number there and back (R199, R200, R203 (a)) -/

section

variable {f : Word32}

theorem fraction_lt (f : Word32) : F32.fraction f < 2 ^ 23 := (f.extractLsb' 0 23).isLt

/-- A normal number's fraction stands below the top bit of its mantissa. -/
theorem normal_mant_toNat (f : Word32) :
    (BitVec.ofNat 128 (2 ^ 127 + F32.fraction f * 2 ^ 104)).toNat = 2 ^ 127 + F32.fraction f * 2 ^ 104 := by
  have hlt := fraction_lt f
  rw [BitVec.toNat_ofNat]
  omega

theorem f32ToExt_of_normal (p : Config.Params) (h : F32.isNormal f = true) :
    Client.f32ToExt p f = ⟨BitVec.ofNat 128 (2 ^ 127 + F32.fraction f * 2 ^ 104), Flag.ofSign (F32.signBit f),
      Config.bias + BitVec.ofNat 32 (F32.expBits f) - 126#32⟩ :=
  if_pos h

theorem topBit_of_normal (p : Config.Params) (h : F32.isNormal f = true) :
    (Client.f32ToExt p f).mant.getLsbD 127 = true := by
  rw [f32ToExt_of_normal p h, topBit_iff, normal_mant_toNat]
  exact Nat.le_add_right _ _

theorem trueExp_of_normal (p : Config.Params) (h : F32.isNormal f = true) :
    (Client.f32ToExt p f).trueExp + 126 = F32.expBits f := by
  obtain ⟨hlow, hhigh⟩ := of_decide_eq_true h
  have hbias : Config.bias.toNat = 2 ^ 31 := rfl
  rw [f32ToExt_of_normal p h, ExtFloat.trueExp, BitVec.toNat_sub, BitVec.toNat_add, BitVec.toNat_ofNat,
    BitVec.toNat_ofNat, hbias]
  omega

/-- The fraction stands below the top bit of the mantissa, and is read back from there. -/
theorem fraction_of_normal (p : Config.Params) (h : F32.isNormal f = true) :
    (Client.f32ToExt p f).mant.extractLsb' 104 23 = f.extractLsb' 0 23 := by
  have hlt := fraction_lt f
  apply BitVec.eq_of_toNat_eq
  rw [f32ToExt_of_normal p h, BitVec.extractLsb'_toNat, normal_mant_toNat, Nat.shiftRight_eq_div_pow]
  change _ = F32.fraction f
  omega

theorem extToF32_f32ToExt (p : Config.Params) (h : F32.isNormal f = true) :
    Client.extToF32 p (Client.f32ToExt p f) = f := by
  have hexp := trueExp_of_normal p h
  have hsign : Flag.signOf (Client.f32ToExt p f) = f.getLsbD 31 := by
    rw [f32ToExt_of_normal p h]
    exact getLsbD_zero_ofSign _
  obtain ⟨hlow, hhigh⟩ := of_decide_eq_true h
  have hbranch : Client.extToF32 p (Client.f32ToExt p f) =
      BitVec.ofBool (Flag.signOf (Client.f32ToExt p f)) ++
        BitVec.ofNat 8 ((Client.f32ToExt p f).trueExp + 126).toNat ++
        (Client.f32ToExt p f).mant.extractLsb' 104 23 :=
    if_pos ⟨topBit_of_normal p h, show 1 ≤ (Client.f32ToExt p f).trueExp + 126 by omega,
      show (Client.f32ToExt p f).trueExp + 126 ≤ 254 by omega⟩
  have hexpBits : BitVec.ofNat 8 (F32.expBits f) = f.extractLsb' 23 8 :=
    (BitVec.ofNat_toNat _ _).trans (BitVec.setWidth_eq _)
  rw [hbranch, hsign, hexp, Int.toNat_natCast, hexpBits, fraction_of_normal p h, ofBool_getLsbD,
    BitVec.extractLsb'_append_extractLsb'_eq_extractLsb' (show 31 = 23 + 8 from rfl),
    BitVec.extractLsb'_append_extractLsb'_eq_extractLsb' (show 23 = 0 + 23 from rfl)]
  exact BitVec.extractLsb'_eq_self

end

/-! ## Scaling by a power of two, without fractions (R202) -/

/-- A negative power moved to the other side makes the comparison one of integers. -/
theorem mul_two_pow_lt_iff (x y : Nat) (e : Int) :
    x * 2 ^ (-e).toNat < y * 2 ^ e.toNat ↔ (x : ℚ) < y * 2 ^ e := by
  obtain ⟨n, rfl | rfl⟩ := e.eq_nat_or_neg
  · rw [Int.toNat_neg_natCast, Int.toNat_natCast, zpow_natCast, pow_zero, mul_one]
    norm_cast
  · rw [neg_neg, Int.toNat_neg_natCast, Int.toNat_natCast, zpow_neg, zpow_natCast, ← div_eq_mul_inv,
      lt_div_iff₀ (by positivity), pow_zero, mul_one]
    norm_cast

theorem two_zpow_log2_le {n : Nat} (h : n ≠ 0) : (2 : ℚ) ^ (n.log2 : ℤ) ≤ n := by
  exact_mod_cast Nat.log2_self_le h

theorem lt_two_zpow_log2 (n : Nat) : (n : ℚ) < 2 ^ ((n.log2 : ℤ) + 1) := by
  exact_mod_cast Nat.lt_log2_self

section

variable {num den : Nat}

/-- The true exponent is the `e` with `2^(e-1) <= num/den < 2^e` (R202). -/
theorem rationalExp_spec (hnum : num ≠ 0) (hden : den ≠ 0) :
    (den : ℚ) * 2 ^ (Client.rationalExp num den - 1) ≤ num ∧
      (num : ℚ) < den * 2 ^ Client.rationalExp num den := by
  have hsplit (i j : ℤ) : (2 : ℚ) ^ i * 2 ^ (j - i) = 2 ^ j := by
    rw [← zpow_add₀ two_ne_zero, add_sub_cancel]
  simp only [Client.rationalExp]
  generalize hl : (num.log2 : ℤ) = l
  generalize hk : (den.log2 : ℤ) = k
  have hnumLow : (2 : ℚ) ^ l ≤ num := hl ▸ two_zpow_log2_le hnum
  have hnumHigh : (num : ℚ) < 2 ^ (l + 1) := hl ▸ lt_two_zpow_log2 num
  have hdenLow : (2 : ℚ) ^ k ≤ den := hk ▸ two_zpow_log2_le hden
  have hdenHigh : (den : ℚ) < 2 ^ (k + 1) := hk ▸ lt_two_zpow_log2 den
  split
  next h =>
    refine ⟨?_, (mul_two_pow_lt_iff _ _ _).mp h⟩
    calc (den : ℚ) * 2 ^ (l - k - 1) ≤ 2 ^ (k + 1) * 2 ^ (l - k - 1) :=
          mul_le_mul_of_nonneg_right hdenHigh.le (by positivity)
      _ = 2 ^ l := by rw [sub_sub, hsplit]
      _ ≤ num := hnumLow
  next h =>
    refine ⟨?_, ?_⟩
    · rw [add_sub_cancel_right]
      exact not_lt.mp fun hlt => h ((mul_two_pow_lt_iff _ _ _).mpr hlt)
    · calc (num : ℚ) < 2 ^ (l + 1) := hnumHigh
        _ = 2 ^ k * 2 ^ (l - k + 1) := by rw [← add_sub_right_comm, hsplit]
        _ ≤ den * 2 ^ (l - k + 1) := mul_le_mul_of_nonneg_right hdenLow (by positivity)

/-- The dividend and divisor of the quantisation compare as the number does with a power of two. -/
theorem scaled_lt_iff (e : Int) (j : Nat) :
    num * 2 ^ (128 - e).toNat < 2 ^ j * (den * 2 ^ (e - 128).toNat) ↔ (num : ℚ) < den * 2 ^ (e - 128 + j) := by
  rw [← neg_sub e 128, ← mul_assoc, mul_two_pow_lt_iff, zpow_add₀ two_ne_zero, zpow_natCast, Nat.cast_mul,
    Nat.cast_pow, Nat.cast_ofNat, mul_comm ((2 : ℚ) ^ j), mul_assoc, mul_comm ((2 : ℚ) ^ j)]

/-- A quotient, rounded up where it is inexact and `up` says so. -/
def roundedQuotient (n d : Nat) (up : Bool) : Nat := if n % d = 0 then n / d else n / d + up.toNat

/-- Of a quotient in the upper half of 128 bits the rounding leaves the range for 2^128 alone. -/
theorem roundedQuotient_bounds {n d : Nat} (up : Bool) (hlow : 2 ^ 127 * d ≤ n) (hhigh : n < 2 ^ 128 * d) :
    2 ^ 127 ≤ roundedQuotient n d up ∧ roundedQuotient n d up ≤ 2 ^ 128 := by
  have hd : 0 < d := Nat.pos_of_ne_zero fun h => by simp [h] at hhigh
  have hdivLow : 2 ^ 127 ≤ n / d := (Nat.le_div_iff_mul_le hd).mpr hlow
  have hdivHigh : n / d < 2 ^ 128 := (Nat.div_lt_iff_lt_mul hd).mpr hhigh
  have hup := Bool.toNat_le up
  unfold roundedQuotient
  split_ifs <;> omega

/-- The mantissa of a quantised number (R202); 2^128 is 2^127 one exponent higher (log entry 13). -/
theorem quantise_fst (num den : Nat) :
    (Client.quantise num den).1 =
      let e := Client.rationalExp num den
      let m := roundedQuotient (num * 2 ^ (128 - e).toNat) (den * 2 ^ (e - 128).toNat)
        (Config.decimalRoundsUp num den)
      if m = 2 ^ 128 then 2 ^ 127 else m :=
  apply_ite Prod.fst _ _ _

/-- The mantissa of a quantised number has its top bit set and fits. -/
theorem quantise_bounds (hnum : num ≠ 0) (hden : den ≠ 0) :
    2 ^ 127 ≤ (Client.quantise num den).1 ∧ (Client.quantise num den).1 < 2 ^ 128 := by
  obtain ⟨hlow, hhigh⟩ := rationalExp_spec hnum hden
  rw [quantise_fst]
  generalize Client.rationalExp num den = e at hlow hhigh ⊢
  have hdivLow : 2 ^ 127 * (den * 2 ^ (e - 128).toNat) ≤ num * 2 ^ (128 - e).toNat := by
    rw [← not_lt, scaled_lt_iff, not_lt]
    exact (congrArg (fun i : ℤ => (den : ℚ) * 2 ^ i) (by ring)).trans_le hlow
  have hdivHigh : num * 2 ^ (128 - e).toNat < 2 ^ 128 * (den * 2 ^ (e - 128).toNat) := by
    rw [scaled_lt_iff]
    exact hhigh.trans_eq (congrArg (fun i : ℤ => (den : ℚ) * 2 ^ i) (by ring))
  obtain ⟨hround, hround'⟩ := roundedQuotient_bounds (Config.decimalRoundsUp num den) hdivLow hdivHigh
  dsimp only
  split
  next h => exact ⟨le_rfl, by norm_num⟩
  next h => exact ⟨hround, lt_of_le_of_ne hround' h⟩

end

/-! ## What a constructor delivers (R198, R221) -/

/-- A zero or a normalised value, with no error bit set. -/
def Constructed (v : ExtFloat) : Prop := (v.mant = 0 ∨ v.normalised = true) ∧ v.flags &&& 0xE#32 = 0

theorem withoutErrors_and_errors (g : Word32) : Flag.withoutErrors g &&& 0xE#32 = 0 := by
  have hmask : ~~~Flag.errors &&& 0xE#32 = 0#32 := rfl
  rw [Flag.withoutErrors, BitVec.and_assoc, hmask]
  exact BitVec.and_zero

theorem ofSign_and_errors (s : Bool) : Flag.ofSign s &&& 0xE#32 = 0 := by
  cases s <;> rfl

theorem constructed_construct (v : ExtFloat) : Constructed (Client.construct v) := by
  rw [Client.construct_eq, Constructed, normalizeExt_flags, ExtFloat.normalised, topBit_iff]
  exact ⟨normalizeExt_zero_or_topBit _, withoutErrors_and_errors v.flags⟩

theorem constructed_f32ToExt (p : Config.Params) (f : Word32) : Constructed (Client.f32ToExt p f) := by
  by_cases h : F32.isNormal f = true
  · refine ⟨.inr (topBit_of_normal p h), ?_⟩
    rw [f32ToExt_of_normal p h]
    exact ofSign_and_errors _
  · rw [Client.f32ToExt, if_neg h]
    exact constructed_construct _

theorem constructed_decimalToExt (d : Decimal) : Constructed (Client.decimalToExt d) := by
  by_cases h : d.coeff = 0
  · rw [Client.decimalToExt, if_pos h]
    exact constructed_construct _
  · have hnum : d.num ≠ 0 := Nat.mul_ne_zero h (by positivity)
    have hden : d.den ≠ 0 := by
      rw [Decimal.den]
      positivity
    obtain ⟨htop, hfits⟩ := quantise_bounds hnum hden
    rw [Client.decimalToExt, if_neg h]
    refine ⟨.inr ((topBit_iff _).mpr ?_), ofSign_and_errors _⟩
    rwa [BitVec.toNat_ofNat, Nat.mod_eq_of_lt hfits]

theorem constructed_decimalStringToExt (cs : List Char) : Constructed (Client.decimalStringToExt cs) := by
  unfold Client.decimalStringToExt
  split
  · exact constructed_decimalToExt _
  · exact constructed_construct _

/-- Settles O58: the mantissa of a normal number holds its fraction below the top bit; a decimal's is quantised into the
upper half of the range, and a free value is normalised. -/
theorem normalFloatsRoundTrip : Obligations.NormalFloatsRoundTrip := by
  refine ⟨fun p f h => ⟨extToF32_f32ToExt p h, topBit_of_normal p h⟩, ?_⟩
  rintro v (⟨p, f, rfl⟩ | ⟨i, rfl⟩ | ⟨cs, rfl⟩)
  · exact constructed_f32ToExt p f
  · exact constructed_construct _
  · exact constructed_decimalStringToExt cs

end Sys2Proof.Proofs

/-! # Proofs: exceptions, reset and hazards (60_exceptions.md, 70_reset_and_hazards.md)

What a completed step has done, when a step completes, and that no well-formed request is left without its answer. -/

namespace Sys2Proof.Proofs

open Machine Statement

/-! ## A step that completes, and one that is refused (R224, R241) -/

/-- A completed step was idle, or took the oldest request and answered it. -/
theorem step_next_cases {s t : State} (h : step s = .next t) :
    (s.pending = [] ∧ t = s) ∨
    ∃ r i, s.pending = r :: t.pending ∧ decode r = .ok i ∧ t.responses = s.responses ++ [answer i] := by
  obtain ⟨hp, hs⟩ | ⟨r, rest, i, hp, hd, hs⟩ | ⟨r, rest, why, -, -, hs⟩ := step_cases s
  · cases hs.symm.trans h
    exact .inl ⟨hp, rfl⟩
  · cases hs.symm.trans h
    exact .inr ⟨r, i, hp, hd, rfl⟩
  · cases hs.symm.trans h

/-- A step completes if the request it takes, should there be one, is well-formed. -/
theorem step_completes {s : State} (h : ∀ r rest, s.pending = r :: rest → WellFormedRequest r) :
    ∃ t, step s = .next t := by
  cases hp : s.pending with
  | nil => exact ⟨s, step_of_idle hp⟩
  | cons r rest =>
    obtain ⟨i, hd⟩ := h r rest hp
    exact ⟨_, step_of_decode_ok hp hd⟩

/-- What a completed step leaves pending: the requests behind the oldest. -/
theorem step_next_pending {s t : State} (h : step s = .next t) : t.pending = s.pending.tail := by
  obtain ⟨hp, rfl⟩ | ⟨r, i, hp, -, -⟩ := step_next_cases h
  · rw [hp, List.tail_nil]
  · rw [hp, List.tail_cons]

/-- The client's duty stands after a step, which presents no request (R246). -/
theorem step_keeps_safe {s t : State} (hsafe : s.Safe) (h : step s = .next t) : t.Safe := by
  intro r hr
  rw [step_next_pending h] at hr
  exact hsafe r (List.mem_of_mem_tail hr)

/-- Settles O40: there is no reason for a fault, and a step that completed has decoded the request it took. -/
theorem stepStopsOnlyOnIllFormed : Obligations.StepStopsOnlyOnIllFormed := by
  intro s
  refine ⟨fun f => (nomatch f), ?_, step_completes⟩
  rintro ⟨t, h⟩ r rest hp
  obtain ⟨hnil, -⟩ | ⟨r', i, hcons, hd, -⟩ := step_next_cases h
  · cases hp.symm.trans hnil
  · cases hp.symm.trans hcons
    exact ⟨i, hd⟩

/-- Settles O44: in a safe state the oldest request, if there is one, is well-formed. -/
theorem safeStatesMakeProgress : Obligations.SafeStatesMakeProgress := by
  intro s hsafe
  have hhead : ∀ r rest, s.pending = r :: rest → WellFormedRequest r :=
    fun r rest hp => hsafe r (hp ▸ List.mem_cons_self)
  obtain ⟨t, h⟩ := step_completes hhead
  exact ⟨t, h, step_keeps_safe hsafe h, step_next_pending h⟩

/-! ## One answer for each request (R252) -/

/-- Every well-formed request has an answer, so there are as many answers as requests. -/
theorem length_answers {l : List Request} (h : ∀ r ∈ l, WellFormedRequest r) :
    (l.filterMap answerRequest).length = l.length := by
  rw [List.filterMap_length_eq_length]
  intro r hr
  obtain ⟨i, hd⟩ := h r hr
  rw [answerRequest_of_decode_ok hd, Option.isSome_some]

/-- Settles O45: the requests taken are none for an idle step, and otherwise the oldest alone. -/
theorem stepConservesTransactions : Obligations.StepConservesTransactions := by
  intro s t h
  obtain ⟨hp, rfl⟩ | ⟨r, i, hp, hd, hr⟩ := step_next_cases h
  · exact ⟨rfl, [], by simp [hp]⟩
  · have hanswers : [r].filterMap answerRequest = [answer i] := by simp [answerRequest_of_decode_ok hd]
    refine ⟨?_, [r], ?_, hp, ?_, ?_⟩
    · simp only [State.transactions, hp, hr, List.length_cons, List.length_append, List.length_nil]
      omega
    · simp [hp]
    · rw [hanswers, hr]
    · rw [hanswers, List.length_singleton, List.length_singleton]

/-- Settles O46: a run over well-formed requests, from the responses already given. -/
theorem runAnswersEveryRequestInOrder : Obligations.RunAnswersEveryRequestInOrder :=
  fun s hsafe => ⟨run_wellFormed hsafe s.responses, length_answers hsafe⟩

end Sys2Proof.Proofs
